-- ==== Sys2Proof/Word.lean ====
section
/-! DEFINITION. The words that cross the SNU's boundary (00_scope.md R8, 10_state.md R17). -/

namespace Sys2Proof

/-- A value on a port of width `w`: bit 0 is the least significant (R8). -/
abbrev Word (w : Nat) := BitVec w

/-- A value on the 3-bit OP port (10_state.md R17, 30_encoding.md R39). -/
abbrev OpCode := BitVec 3

end Sys2Proof
end

