-- ==== Sys2Proof/Config.lean ====
section
/-! DEFINITION. What is fixed when an instance is built (the width N and what is derived from it), and the one free
value of the model. -/

namespace Sys2Proof

/-- The serial-number width N of an instance: exactly eight values, closed (00_scope.md R4).
`n8` stands for N = 8, and so on. -/
inductive Width where
  | n8 | n16 | n24 | n32 | n40 | n48 | n56 | n62
deriving DecidableEq, Repr

namespace Width

/-- The number N itself (R4). -/
@[reducible] def bits : Width → Nat
  | .n8 => 8 | .n16 => 16 | .n24 => 24 | .n32 => 32 | .n40 => 40 | .n48 => 48 | .n56 => 56 | .n62 => 62

/-- W, the width of the operand and result ports: 32 for N = 8, 16, 24 and 64 otherwise (R5). -/
@[reducible] def portBits : Width → Nat
  | .n8 => 32 | .n16 => 32 | .n24 => 32 | .n32 => 64 | .n40 => 64 | .n48 => 64 | .n56 => 64 | .n62 => 64

/-- R = 2^N, the ring size (R6). -/
def ring (n : Width) : Nat := 2 ^ n.bits

/-- H = 2^(N-1), the half range (R6). -/
def half (n : Width) : Nat := 2 ^ (n.bits - 1)

/-- MAX = 2^N - 1, the largest serial value (R6). -/
def max (n : Width) : Nat := 2 ^ n.bits - 1

/-- The eight instances of the family (R7). -/
def all : List Width := [.n8, .n16, .n24, .n32, .n40, .n48, .n56, .n62]

/-- The instance of a given N, none for an N outside the closed set (93_implementation_defined.md U8). -/
def ofBits (k : Nat) : Option Width := all.find? (fun n => n.bits == k)

end Width

namespace Config

/-- A FREE VALUE: what stands on a port that the host does not drive (30_encoding.md R42, 70_reset_and_hazards.md
R113). Nothing constrains it; the argument is a counter in State, so that every draw is a fresh one. Port width W takes
the low W bits. Log entry 4. -/
opaque undriven : Nat → BitVec 64

end Config

end Sys2Proof
end

