-- ==== Sys2Proof/Syntax.lean ====
section
/-! DEFINITION. The six operations, and the transactions and program lines a host writes with them. -/

namespace Sys2Proof

/-- The closed set of six operations (30_encoding.md R46). An operation is a value of OP; its operands are on the ports
S0 and S1 and its destination is RES, so a constructor has no argument (00_scope.md R14, 30_encoding.md R47). -/
inductive Instr where
  /-- Modular addition (40_add.md R54). -/
  | add
  /-- Width constant (43_bits_inrange.md R74). -/
  | bits
  /-- Signed wraparound-aware distance (41_distance.md R61). -/
  | dist
  /-- Unsigned distance (41_distance.md R65). -/
  | distu
  /-- Serial-order comparison (42_compare.md R71). -/
  | cmp
  /-- Range validity (43_bits_inrange.md R75). -/
  | inrange
deriving DecidableEq, Repr

namespace Instr

/-- The six operations in the order of their codes (30_encoding.md R39). -/
def all : List Instr := [.add, .bits, .dist, .distu, .cmp, .inrange]

end Instr

/-- A host variable's name (30_encoding.md R53). -/
abbrev Name := String

/-- What a program line gives for an operand (30_encoding.md R51, R53): a signed decimal integer, a hexadecimal W-bit
pattern, or the name of an earlier result. -/
inductive Operand where
  | dec (i : Int)
  | hex (v : Nat)
  | name (x : Name)
deriving DecidableEq, Repr

/-- One line of a program as it is written: `name = MNEMONIC.N op0, op1` (30_encoding.md R51, R53). -/
structure Line where
  name     : Option Name
  instr    : Instr
  inst     : Width
  operands : List Operand
deriving DecidableEq, Repr

/-- One transaction the host is to issue: the triple (OP, S0, S1) of 30_encoding.md R38, the instance it is addressed to
and the name its RES is kept under. An operand `none` is a port the host does not drive, the `-` of R53. -/
structure Txn where
  name : Option Name
  inst : Width
  op   : OpCode
  s0   : Option Operand
  s1   : Option Operand
deriving DecidableEq, Repr

end Sys2Proof
end

