-- ==== Sys2Proof/WellFormed.lean ====
section
/-! DEFINITION. When a written program is one in the sense of 30_encoding.md R51 and R53. Every value of `Instr` is
well formed: it has no field. -/

namespace Sys2Proof

/-- How many operands a written line has: an operation omits the ports it does not read (30_encoding.md R51, R42). -/
def Instr.arity : Instr → Nat
  | .add => 2 | .bits => 0 | .dist => 2 | .distu => 2 | .cmp => 2 | .inrange => 1

/-- The names defined so far, each with the instance whose RES it holds. -/
abbrev NameWidths := List (Name × Width)

/-- An operand that instance `n` can be given unchanged: a decimal in the signed range of the port, a pattern of W bits,
or the name of an earlier result of the same port width (R40, R51, R53). -/
def Operand.wf (env : NameWidths) (n : Width) : Operand → Bool
  | .dec i => decide (-(2 ^ (n.portBits - 1) : Int) ≤ i) && decide (i < 2 ^ (n.portBits - 1))
  | .hex v => decide (v < 2 ^ n.portBits)
  | .name x =>
    match env.lookup x with
    | none => false
    | some m => m.portBits == n.portBits

/-- A line with the operands its operation reads, each well formed (R51). -/
def Line.wf (env : NameWidths) (l : Line) : Bool :=
  (l.operands.length == l.instr.arity) && l.operands.all (fun o => o.wf env l.inst)

/-- The names after a line (R53). -/
def Line.define (env : NameWidths) (l : Line) : NameWidths :=
  match l.name with
  | none => env
  | some x => (x, l.inst) :: env

/-- A straight-line program whose every line is well formed, its named operands being results of earlier lines (R53). -/
def programWf : NameWidths → List Line → Bool
  | _, [] => true
  | env, l :: ls => l.wf env && programWf (l.define env) ls

end Sys2Proof
end

