-- ==== Sys2Proof/Decode.lean ====
section
/-! DEFINITION. The opcode map (30_encoding.md R39, R46 to R48), the bit string of a transaction (R38), the encoder of
both, and the assembly of a written line into a transaction (R51). -/

namespace Sys2Proof

/-- The operation an OP code selects, `none` for the reserved codes 6 and 7. Total, and a function of OP alone: neither
N, S0 nor S1 takes part (30_encoding.md R46, R47, R48). -/
def decode (op : OpCode) : Option Instr :=
  match op.toNat with
  | 0 => some .add
  | 1 => some .bits
  | 2 => some .dist
  | 3 => some .distu
  | 4 => some .cmp
  | 5 => some .inrange
  | _ => none

/-- The OP code of an operation (30_encoding.md R46). -/
def encode : Instr → OpCode
  | .add => 0b000#3
  | .bits => 0b001#3
  | .dist => 0b010#3
  | .distu => 0b011#3
  | .cmp => 0b100#3
  | .inrange => 0b101#3

/-- The number of bits of a transaction of instance `n` written as one bit string: 3 + 2W (30_encoding.md R38). -/
abbrev txnBits (n : Width) : Nat := 3 + (n.portBits + n.portBits)

/-- `{OP[2:0], S0[W-1:0], S1[W-1:0]}` (30_encoding.md R38). -/
def packTxn (n : Width) (op : OpCode) (s0 s1 : Word n.portBits) : BitVec (txnBits n) :=
  op ++ (s0 ++ s1)

/-- OP, bits [2W+2 : 2W] of the string (30_encoding.md R38). -/
def listedOp (n : Width) (v : BitVec (txnBits n)) : OpCode := v.extractLsb' (n.portBits + n.portBits) 3

/-- S0, bits [2W-1 : W] of the string (30_encoding.md R38). -/
def listedS0 (n : Width) (v : BitVec (txnBits n)) : Word n.portBits := v.extractLsb' n.portBits n.portBits

/-- S1, bits [W-1 : 0] of the string (30_encoding.md R38). -/
def listedS1 (n : Width) (v : BitVec (txnBits n)) : Word n.portBits := v.extractLsb' 0 n.portBits

/-- The operation and operands of a transaction's bit string, `none` where OP is reserved (30_encoding.md R38, R48). -/
def decodeTxn (n : Width) (v : BitVec (txnBits n)) : Option (Instr × Word n.portBits × Word n.portBits) :=
  (decode (listedOp n v)).map (fun i => (i, listedS0 n v, listedS1 n v))

/-- The bit string of a transaction (30_encoding.md R38). -/
def encodeTxn (n : Width) (i : Instr) (s0 s1 : Word n.portBits) : BitVec (txnBits n) :=
  packTxn n (encode i) s0 s1

/-- The OP code in a word numbered as spec/opcode_table.json numbers it: match and mask are over the 3-bit OP field
alone, bit 0 of the word being OP[0]; the bits that fill the byte are no wire of the port. Log entry 9. -/
def tableOp (nbits w : Nat) : OpCode := BitVec.ofNat 3 (w % 2 ^ nbits)

/-- The instruction the decoder reads from a word of the opcode table. -/
def decodeTableWord (nbits w : Nat) : Option Instr := decode (tableOp nbits w)

/-- Whether an operation reads port S0 (30_encoding.md R42). -/
def Instr.readsS0 : Instr → Bool
  | .add => true | .bits => false | .dist => true | .distu => true | .cmp => true | .inrange => true

/-- Whether an operation reads port S1 (30_encoding.md R42). -/
def Instr.readsS1 : Instr → Bool
  | .add => true | .bits => false | .dist => true | .distu => true | .cmp => true | .inrange => false

/-- The transaction of a written line: OP from the mnemonic, operand0 on S0 and operand1 on S1, and a port the operation
does not read left undriven (30_encoding.md R51, R53). Of a line with another number of operands than its operation reads,
which the spec gives no meaning, a superfluous operand is dropped and the port of a missing one is left undriven: DESIGN
CHOICE, log entry 18. -/
def Line.assemble (l : Line) : Txn where
  name := l.name
  inst := l.inst
  op   := encode l.instr
  s0   := if l.instr.readsS0 then l.operands[0]? else none
  s1   := if l.instr.readsS1 then l.operands[1]? else none

end Sys2Proof
end

