-- ==== Sys2Proof/Machine/State.lean ====
section
/-! DEFINITION. What the machine holds. The SNU itself has no architectural state (10_state.md R15): State holds the
ports of the eight instances, and what the host holds, which is the one agent (00_scope.md R14). Log entry 1. -/

namespace Sys2Proof.Machine

/-- The ports of one instance whose operand and result width is `w`: the complete list of 10_state.md R17. `op`, `s0`
and `s1` are driven by the host; `res` is what the instance presents. -/
structure Ports (w : Nat) where
  op  : OpCode
  s0  : Word w
  s1  : Word w
  res : Word w
deriving DecidableEq, Repr

/-- The W-bit RES of a transaction, as the host keeps it under a name (30_encoding.md R53). -/
structure Result where
  inst : Width
  val  : Word inst.portBits
deriving DecidableEq, Repr

/-- The whole state: plain data. `p8` to `p62` are the instances of the family (00_scope.md R7); `sel`, `program`,
`names` and `draws` belong to the host. -/
structure State where
  /-- The instance the host addresses with its present transaction (30_encoding.md R51, 70_reset_and_hazards.md R114). -/
  sel     : Width
  p8      : Ports 32
  p16     : Ports 32
  p24     : Ports 32
  p32     : Ports 64
  p40     : Ports 64
  p48     : Ports 64
  p56     : Ports 64
  p62     : Ports 64
  /-- The transactions the host has yet to issue, in order (30_encoding.md R53). -/
  program : List Txn
  /-- The host's named results, no name twice (30_encoding.md R53). -/
  names   : List (Name × Result)
  /-- How many free values have been drawn for undriven ports (the model's own field, log entry 4). -/
  draws   : Nat
deriving DecidableEq, Repr

/-- Ports that nobody drives, read as zero; RES is then ADD of the two zeros (log entry 2). -/
def Ports.quiet (w : Nat) : Ports w := ⟨0, 0, 0, 0⟩

/-- Before the first transaction: no named result, nothing to issue, every port at rest. The block itself has no reset
and no reset value (10_state.md R25, 70_reset_and_hazards.md R111); the port values are the model's choice (log entry 2). -/
def State.reset : State where
  sel     := .n8
  p8      := .quiet 32
  p16     := .quiet 32
  p24     := .quiet 32
  p32     := .quiet 64
  p40     := .quiet 64
  p48     := .quiet 64
  p56     := .quiet 64
  p62     := .quiet 64
  program := []
  names   := []
  draws   := 0

/-- Why the machine could stop with a fault. No constructor: no operation raises an exception, fault, trap or error
under any operands (60_exceptions.md R97, R99), and a model never returns a fault. Safe. -/
inductive Fault
deriving DecidableEq, Repr

/-- Why the model gives a transaction no meaning. -/
inductive Refusal where
  /-- Raised by `exec` for an instruction that has no meaning yet. Safe. No arm uses it. -/
  | notModelled (mnemonic : String)
  /-- Raised by `step` when the host presents a reserved OP code, 6 or 7: RES is unspecified there and a model refuses
  (30_encoding.md R48, 60_exceptions.md R100). Safe. -/
  | reservedOp
deriving DecidableEq, Repr

end Sys2Proof.Machine
end

