-- ==== Sys2Proof/Machine/Ops.lean ====
section
/-! DEFINITION. The operations on the ports that every meaning and the step share. There is no memory and no register to
operate on (20_memory.md R27, 10_state.md R18), and no exception to take or return from (60_exceptions.md R97, R103,
R104). -/

namespace Sys2Proof.Machine

/-- The ports of instance `n`. -/
def State.ports (s : State) : (n : Width) → Ports n.portBits
  | .n8 => s.p8
  | .n16 => s.p16
  | .n24 => s.p24
  | .n32 => s.p32
  | .n40 => s.p40
  | .n48 => s.p48
  | .n56 => s.p56
  | .n62 => s.p62

/-- The state with the ports of instance `n` replaced: the instances share no wire (00_scope.md R7). -/
def State.setPorts (s : State) : (n : Width) → Ports n.portBits → State
  | .n8, p => { s with p8 := p }
  | .n16, p => { s with p16 := p }
  | .n24, p => { s with p24 := p }
  | .n32, p => { s with p32 := p }
  | .n40, p => { s with p40 := p }
  | .n48, p => { s with p48 := p }
  | .n56, p => { s with p56 := p }
  | .n62, p => { s with p62 := p }

/-- S0 of the addressed instance, a raw operand (30_encoding.md R40). -/
def State.s0 (s : State) : Word s.sel.portBits := (s.ports s.sel).s0

/-- S1 of the addressed instance, a raw operand (30_encoding.md R40). -/
def State.s1 (s : State) : Word s.sel.portBits := (s.ports s.sel).s1

/-- OP of the addressed instance (30_encoding.md R39). -/
def State.opcode (s : State) : OpCode := (s.ports s.sel).op

/-- `RES <- v` on the addressed instance: the one effect an operation has (00_scope.md R13, 20_memory.md R31). -/
def State.present (s : State) (v : Word s.sel.portBits) : State :=
  s.setPorts s.sel { s.ports s.sel with res := v }

/-- The host addresses instance `n` and drives its three input ports, all together (20_memory.md R30). RES keeps what it
showed until the transaction is evaluated; a step shows no state between the two (log entry 13).
The inputs of every other instance, and so their RES, are held as last driven: DESIGN CHOICE, log entry 16. -/
def State.drive (s : State) (n : Width) (op : OpCode) (s0 s1 : Word n.portBits) : State :=
  { s.setPorts n { s.ports n with op := op, s0 := s0, s1 := s1 } with sel := n }

end Sys2Proof.Machine
end

