-- ==== Sys2Proof/Machine/Operands.lean ====
section
/-! DEFINITION. Readings of a word, operand reduction, the three result formats, and how the host turns a written operand
into a value on a port. -/

namespace Sys2Proof.Machine

/-- `uint(v)` (00_scope.md R9), as a mathematical integer (R12). -/
def uint {w : Nat} (v : Word w) : Int := (v.toNat : Int)

/-- `sint(v)`: the two's-complement value (00_scope.md R9). -/
def sint {w : Nat} (v : Word w) : Int := v.toInt

/-- `bv_k(i)`: the k-bit vector whose `uint` is `i mod 2^k` (00_scope.md R9). -/
def bv (k : Nat) (i : Int) : Word k := BitVec.ofInt k i

/-- `zext_k(v)` (00_scope.md R11). -/
def zext {w : Nat} (k : Nat) (v : Word w) : Word k := v.setWidth k

/-- `sext_k(v)` (00_scope.md R11). -/
def sext {w : Nat} (k : Nat) (v : Word w) : Word k := v.signExtend k

/-- `red(v) = v[N-1:0]` (00_scope.md R10). -/
def red (n : Width) (v : Word n.portBits) : Word n.bits := v.extractLsb' 0 n.bits

/-- The reduced operand as an integer in [0, MAX]: the `a` and `b` of the rules (00_scope.md R13). -/
def reduced (n : Width) (v : Word n.portBits) : Int := uint (red n v)

/-- `delta(a, b) = (b - a) mod R`, the floor modulus (41_distance.md R57, 00_scope.md R12). -/
def delta (n : Width) (a b : Int) : Int := (b - a) % (n.ring : Int)

/-- The unsigned result format of ADD and DISTU: N bits, zero above (30_encoding.md R43). -/
def unsignedResult (n : Width) (r : Int) : Word n.portBits := zext n.portBits (bv n.bits r)

/-- The unsigned result format of BITS: the 6-bit constant, zero above (30_encoding.md R43, 43_bits_inrange.md R74). -/
def constantResult (n : Width) (r : Int) : Word n.portBits := zext n.portBits (bv 6 r)

/-- The boolean result format of INRANGE: bit 0, zero above (30_encoding.md R44). -/
def booleanResult (n : Width) (c : Bool) : Word n.portBits := zext n.portBits (if c then 1#1 else 0#1)

/-- The signed result format of DIST and CMP: N + 1 bits, sign-extended (30_encoding.md R45). -/
def signedResult (n : Width) (r : Int) : Word n.portBits := sext n.portBits (bv (n.bits + 1) r)

/-- The integer the result format of an operation denotes (30_encoding.md R43 to R46). -/
def resultValue (i : Instr) {w : Nat} (res : Word w) : Int :=
  match i with
  | .add => uint res
  | .bits => uint res
  | .dist => sint res
  | .distu => uint res
  | .cmp => sint res
  | .inrange => uint res

/-- The value on a port that nobody drives: W bits of a free value (log entry 4). -/
def floating (n : Width) (draw : Nat) : Word n.portBits := (Config.undriven draw).setWidth n.portBits

/-- A named result driven on a port of instance `n`: bit i of the value on wire i (30_encoding.md R53, "unchanged"). A
result of a 32-bit port gives a 64-bit port its low half only; the wires above are undriven (log entry 5). -/
def carry (r : Result) (n : Width) (free : Word n.portBits) : Word n.portBits :=
  if n.portBits ≤ r.inst.portBits then r.val.setWidth n.portBits
  else ((free >>> r.inst.portBits) <<< r.inst.portBits) ||| r.val.setWidth n.portBits

/-- The value the host drives for a written operand (30_encoding.md R51, R53). A port without an operand, and one given a
name that no earlier result has, is not driven (log entries 4 and 8); a literal is `bv_W` of itself (log entry 10).
Names are compared letter by letter, their case included: DESIGN CHOICE, log entry 19. -/
def resolve (names : List (Name × Result)) (n : Width) (free : Word n.portBits) :
    Option Operand → Word n.portBits
  | none => free
  | some (.dec i) => bv n.portBits i
  | some (.hex v) => BitVec.ofNat n.portBits v
  | some (.name x) =>
    match names.lookup x with
    | none => free
    | some r => carry r n free

end Sys2Proof.Machine
end

