-- ==== Sys2Proof/Machine/Flags.lean ====
section
/-! DEFINITION. The half-range boundary checker, and the conditions a host can read. The block has no flag: no operation
writes a carry, overflow, zero, negative or tie flag (10_state.md R20); what a processor would show as a flag is
available only as a value of RES. -/

namespace Sys2Proof.Machine

/-- `is_half(a, b)`: the half-range boundary check, true exactly at a tie (41_distance.md R58). -/
def isHalf (n : Width) (a b : Int) : Bool := delta n a b == (n.half : Int)

/-- The range condition of INRANGE on a raw signed operand (43_bits_inrange.md R75). -/
def inRange (n : Width) (s : Int) : Bool := decide (0 ≤ s) && decide (s ≤ (n.max : Int))

/-- RES of CMP says that s0 precedes s1: it is negative (42_compare.md R71, R72). -/
def saysPrecedes {w : Nat} (res : Word w) : Bool := decide (sint res < 0)

/-- RES of CMP says that s0 follows s1: it is positive (42_compare.md R71, R72). -/
def saysFollows {w : Nat} (res : Word w) : Bool := decide (0 < sint res)

/-- RES of CMP or DIST says that the reduced operands are equal: it is zero (42_compare.md R72, 41_distance.md R66). -/
def saysEqual {w : Nat} (res : Word w) : Bool := decide (sint res = 0)

/-- RES of INRANGE read as a boolean: bit 0 (30_encoding.md R44). -/
def saysTrue {w : Nat} (res : Word w) : Bool := res.getLsbD 0

end Sys2Proof.Machine
end

