-- ==== Sys2Proof/Machine/Adder.lean ====
section
/-! DEFINITION. The modular adder: ADD (40_add.md). -/

namespace Sys2Proof.Machine

/-- `(s0 + s1) mod 2^N` on the raw signed operands, over the integers (40_add.md R54, first form; no W-bit overflow
condition exists, R56). -/
def sumOf (n : Width) (s0 s1 : Int) : Int := (s0 + s1) % (n.ring : Int)

/-- RES of ADD. -/
def addResult (n : Width) (s0 s1 : Word n.portBits) : Word n.portBits :=
  unsignedResult n (sumOf n (sint s0) (sint s1))

/-- ADD (40_add.md R54). The carry is dropped and no flag is written (10_state.md R20). -/
def execAdd (s : State) : Host.Outcome State Fault Refusal :=
  .next (s.present (addResult s.sel s.s0 s.s1))

end Sys2Proof.Machine
end

