-- ==== Sys2Proof/Machine/Distance.lean ====
section
/-! DEFINITION. The distance calculator: DIST and DISTU, with the tie-break, and the two other forms of the distance the
spec states (41_distance.md). -/

namespace Sys2Proof.Machine

/-- The distance at a tie: -H from the numerically smaller reduced operand to the larger, +H the other way. The one
definition of the tie-break (41_distance.md R59; 90_conflicts.md C1 and C2, 92_eei_decisions.md D16; log entry 12). -/
def tieBreak (n : Width) (a b : Int) : Int := if a < b then -(n.half : Int) else (n.half : Int)

/-- The canonical distance of two reduced operands (41_distance.md R60). -/
def serialDist (n : Width) (a b : Int) : Int :=
  if isHalf n a b then tieBreak n a b
  else if delta n a b < (n.half : Int) then delta n a b
  else delta n a b - (n.ring : Int)

/-- The source's shortest-path algorithm, with its step numbers (41_distance.md R62). -/
def distByPaths (n : Width) (a b : Int) : Int :=
  -- step 1
  let lower := min a b
  let higher := max a b
  -- steps 2 and 3
  let inner := higher - lower
  let outer := lower + ((n.ring : Int) - higher)
  -- step 4
  if a = b then 0
  else if inner < outer then (if b > a then inner else -inner)
  else if outer < inner then (if a > b then outer else -outer)
  -- step 5
  else tieBreak n a b

/-- The hardware form: the N-bit difference read as a signed number, but for +H at the tie whose S0[N-1] is 1
(41_distance.md R64). -/
def distByBits (n : Width) (s0 s1 : Word n.portBits) : Int :=
  let t := red n s1 - red n s0
  if t = BitVec.twoPow n.bits (n.bits - 1) ∧ s0.getLsbD (n.bits - 1) = true then (n.half : Int) else sint t

/-- The distance from the reduced S0 to the reduced S1: what DIST, DISTU and CMP all refer to (41_distance.md R60, R67). -/
def distOf (n : Width) (s0 s1 : Word n.portBits) : Int := serialDist n (reduced n s0) (reduced n s1)

/-- RES of DIST. -/
def distResult (n : Width) (s0 s1 : Word n.portBits) : Word n.portBits := signedResult n (distOf n s0 s1)

/-- DIST (41_distance.md R61). -/
def execDist (s : State) : Host.Outcome State Fault Refusal :=
  .next (s.present (distResult s.sel s.s0 s.s1))

/-- RES of DISTU: the magnitude of the same distance (41_distance.md R65). -/
def distuResult (n : Width) (s0 s1 : Word n.portBits) : Word n.portBits :=
  unsignedResult n ((distOf n s0 s1).natAbs : Int)

/-- DISTU (41_distance.md R65). -/
def execDistu (s : State) : Host.Outcome State Fault Refusal :=
  .next (s.present (distuResult s.sel s.s0 s.s1))

end Sys2Proof.Machine
end

