-- ==== Sys2Proof/Machine/Comparator.lean ====
section
/-! DEFINITION. The wraparound-aware comparator: CMP (42_compare.md). -/

namespace Sys2Proof.Machine

/-- RES of CMP: the negation of the very distance DIST exposes, not clamped (42_compare.md R71, R73). -/
def cmpResult (n : Width) (s0 s1 : Word n.portBits) : Word n.portBits := signedResult n (-(distOf n s0 s1))

/-- CMP (42_compare.md R71). -/
def execCmp (s : State) : Host.Outcome State Fault Refusal :=
  .next (s.present (cmpResult s.sel s.s0 s.s1))

end Sys2Proof.Machine
end

