-- ==== Sys2Proof/Machine/Validity.lean ====
section
/-! DEFINITION. The constant and range-validity logic: BITS and INRANGE (43_bits_inrange.md). -/

namespace Sys2Proof.Machine

/-- RES of BITS: the constant N (43_bits_inrange.md R74). -/
def bitsResult (n : Width) : Word n.portBits := constantResult n (n.bits : Int)

/-- BITS (43_bits_inrange.md R74): both operand ports are ignored. -/
def execBits (s : State) : Host.Outcome State Fault Refusal :=
  .next (s.present (bitsResult s.sel))

/-- RES of INRANGE: S0 is read raw, as a signed integer over all W bits (43_bits_inrange.md R75, 30_encoding.md R41). -/
def inrangeResult (n : Width) (s0 : Word n.portBits) : Word n.portBits :=
  booleanResult n (inRange n (sint s0))

/-- INRANGE (43_bits_inrange.md R75): port S1 is ignored. -/
def execInrange (s : State) : Host.Outcome State Fault Refusal :=
  .next (s.present (inrangeResult s.sel s.s0))

/-- INRANGE as logic: NOT (OR of S0[W-1:N]) (43_bits_inrange.md R76). -/
def upperBitsClear (n : Width) (s0 : Word n.portBits) : Bool :=
  !((List.range (n.portBits - n.bits)).any (fun k => s0.getLsbD (n.bits + k)))

end Sys2Proof.Machine
end

