-- ==== Sys2Proof/Machine/Dispatch.lean ====
section
/-! DEFINITION. One arm per operation, each a call of its meaning (30_encoding.md R46). -/

namespace Sys2Proof.Machine

def exec (i : Instr) (s : State) : Host.Outcome State Fault Refusal :=
  match i with
  | .add => Sys2Proof.Machine.execAdd s
  | .bits => Sys2Proof.Machine.execBits s
  | .dist => Sys2Proof.Machine.execDist s
  | .distu => Sys2Proof.Machine.execDistu s
  | .cmp => Sys2Proof.Machine.execCmp s
  | .inrange => Sys2Proof.Machine.execInrange s

end Sys2Proof.Machine
end

