-- ==== Sys2Proof/Machine/Evaluate.lean ====
section
/-! DEFINITION. The evaluation of the inputs present on the addressed instance. -/

namespace Sys2Proof.Machine

/-- The addressed instance evaluates its present inputs: the OP present with S0 and S1 is the one that applies
(20_memory.md R35). A reserved code is refused and RES is given no value (30_encoding.md R48). -/
def evaluate (s : State) : Host.Outcome State Fault Refusal :=
  match decode s.opcode with
  | none => .refused .reservedOp
  | some i => exec i s

end Sys2Proof.Machine
end

