-- ==== Sys2Proof/Machine/HostSide.lean ====
section
/-! DEFINITION. What the host does around a transaction: it issues one, and keeps its RES under a name (00_scope.md R14,
30_encoding.md R53). -/

namespace Sys2Proof.Machine

/-- The host issues a transaction: it resolves the operands, addresses the instance and drives OP, S0 and S1 together
(20_memory.md R30). Two free values are drawn, one for each operand port, whether or not it is driven. -/
def State.issue (s : State) (t : Txn) : State :=
  { s.drive t.inst t.op
      (resolve s.names t.inst (floating t.inst s.draws) t.s0)
      (resolve s.names t.inst (floating t.inst (s.draws + 1)) t.s1) with
    draws := s.draws + 2 }

/-- A name bound to a result, replacing an earlier binding of the same name (30_encoding.md R53; log entry 7).
Two names are the same where every letter is, case included (log entry 19). -/
def bindName (names : List (Name × Result)) (x : Name) (r : Result) : List (Name × Result) :=
  (x, r) :: names.filter (fun e => e.1 ≠ x)

/-- RES of the addressed instance, as the host takes it. -/
def State.taken (s : State) : Result := ⟨s.sel, (s.ports s.sel).res⟩

/-- The host keeps RES under the transaction's name, if it has one (30_encoding.md R53). -/
def State.record (s : State) (x : Option Name) : State :=
  match x with
  | none => s
  | some x => { s with names := bindName s.names x s.taken }

/-- A program given to the host: its lines assembled, to be issued in order (30_encoding.md R53). The names the host has
stay, and the transactions still pending are dropped: DESIGN CHOICE, log entry 17. -/
def State.load (s : State) (p : List Line) : State := { s with program := p.map Line.assemble }

/-- The transaction of an opcode-table word: its OP code, zeros on both operand ports, addressed to the instance the host
addresses already (the same map holds for every N, 30_encoding.md R46). -/
def tableTxn (n : Width) (nbits w : Nat) : Txn := ⟨none, n, tableOp nbits w, some (.hex 0), some (.hex 0)⟩

end Sys2Proof.Machine
end

