-- ==== Sys2Proof/Machine/Step.lean ====
section
/-! DEFINITION. One step is one transaction, the unit of execution (00_scope.md R14). -/

namespace Sys2Proof.Machine

/-- The host issues its next transaction, the instance evaluates it, and the host takes RES. With no transaction left
nothing happens: the inputs are held, and RES stays what it was (70_reset_and_hazards.md R115; log entry 11). -/
def step (s : State) : Host.Outcome State Fault Refusal :=
  match s.program with
  | [] => .next s
  | t :: rest =>
    match evaluate ({ s with program := rest }.issue t) with
    | .next s' => .next (s'.record t.name)
    | .fault f => .fault f
    | .refused r => .refused r

/-- The state in which the host's next transaction is that of an opcode-table word (log entry 6). -/
def State.withFetchWord (s : State) (nbits w : Nat) : State :=
  { s with program := tableTxn s.sel nbits w :: s.program }

end Sys2Proof.Machine
end

