-- ==== Sys2Proof/Machine/Text.lean ====
section
/-! DEFINITION. The written forms: a program line `name = MNEMONIC.N op0, op1 ; -> result` (30_encoding.md R51, R53), read
and printed, and the listing `OP=… S0=… S1=…` of a transaction (R53). Texts are lists of characters. -/

namespace Sys2Proof.Machine

/-- The digit of a value below 16, upper case. -/
def digitChar (k : Nat) : Char := "0123456789ABCDEF".toList.getD k '?'

/-- The value of a digit, either case, in a base up to 16. -/
def digitValue (base : Nat) (c : Char) : Option Nat :=
  let k := "0123456789ABCDEF".toList.idxOf c.toUpper
  if k < base then some k else none

/-- The `k` lowest hexadecimal digits of a value, most significant first. -/
def hexDigits : Nat → Nat → List Char
  | 0, _ => []
  | k + 1, v => hexDigits k (v / 16) ++ [digitChar (v % 16)]

/-- The decimal digits of a value that needs at most `k` of them. -/
def decDigitsUpTo : Nat → Nat → List Char
  | 0, _ => []
  | k + 1, v => if v < 10 then [digitChar v] else decDigitsUpTo k (v / 10) ++ [digitChar (v % 10)]

/-- A natural number in decimal. -/
def decDigits (v : Nat) : List Char := decDigitsUpTo (Nat.log2 v + 1) v

/-- A signed decimal integer (30_encoding.md R51). -/
def decInt (i : Int) : List Char := if i < 0 then '-' :: decDigits i.natAbs else decDigits i.natAbs

/-- The value of a non-empty string of digits. -/
def readDigits (base : Nat) (cs : List Char) : Option Nat :=
  if cs.isEmpty then none
  else cs.foldl (fun acc c => acc.bind (fun v => (digitValue base c).map (fun d => v * base + d))) (some 0)

/-- The canonical mnemonic, upper case (30_encoding.md R46, R51). -/
def mnemonic : Instr → List Char
  | .add => "ADD".toList
  | .bits => "BITS".toList
  | .dist => "DIST".toList
  | .distu => "DISTU".toList
  | .cmp => "CMP".toList
  | .inrange => "INRANGE".toList

/-- The operation of a mnemonic; mnemonics are case-insensitive (30_encoding.md R51). -/
def readMnemonic (cs : List Char) : Option Instr :=
  Instr.all.find? (fun i => mnemonic i == cs.map Char.toUpper)

/-- A written operand; a pattern shows all W / 4 digits of the port (30_encoding.md R51). -/
def printOperand (n : Width) : Operand → List Char
  | .dec i => decInt i
  | .hex v => '0' :: 'x' :: hexDigits (n.portBits / 4) v
  | .name x => x.toList

/-- A line as it is written, with its result where one is given (30_encoding.md R51, R53). -/
def printLine (l : Line) (result : Option Int) : List Char :=
  (match l.name with
    | none => []
    | some x => x.toList ++ " = ".toList)
  ++ mnemonic l.instr ++ '.' :: decDigits l.inst.bits
  ++ (match l.operands with
    | [] => []
    | os => ' ' :: (List.intercalate ", ".toList (os.map (printOperand l.inst))))
  ++ (match result with
    | none => []
    | some r => " ; -> ".toList ++ decInt r)

/-- The text without the spaces around it. -/
def trim (cs : List Char) : List Char := ((cs.dropWhile (· == ' ')).reverse.dropWhile (· == ' ')).reverse

/-- What stands before the first `c`, and what stands after it, if it occurs. -/
def cut (c : Char) : List Char → List Char × Option (List Char)
  | [] => ([], none)
  | d :: ds => if d = c then ([], some ds) else let (l, r) := cut c ds; (d :: l, r)

/-- The parts between the occurrences of `c`. -/
def parts (c : Char) : List Char → List (List Char)
  | [] => [[]]
  | d :: ds =>
    if d = c then [] :: parts c ds
    else match parts c ds with
      | [] => [[d]]
      | p :: ps => (d :: p) :: ps

/-- A name: a letter, then letters, digits or underscores (log entry 10). -/
def readName (cs : List Char) : Option Name :=
  match cs with
  | [] => none
  | c :: rest =>
    if c.isAlpha && rest.all (fun d => d.isAlphanum || d == '_') then some (String.ofList (c :: rest)) else none

/-- A written operand: a `0x` pattern, a signed decimal, or a name (30_encoding.md R51, R53). -/
def readOperand (cs : List Char) : Option Operand :=
  match cs with
  | '0' :: 'x' :: ds => (readDigits 16 ds).map .hex
  | '-' :: ds => (readDigits 10 ds).map (fun v => .dec (-(v : Int)))
  | ds =>
    match readDigits 10 ds with
    | some v => some (.dec (v : Int))
    | none => (readName ds).map .name

/-- A written line; the comment after `;` is not part of it (30_encoding.md R51, R53). The number of operands and their
ranges are checked by `Line.wf`. -/
def readLine (text : List Char) : Option Line :=
  let body := (cut ';' text).1
  let (left, right) := cut '=' body
  let named := match right with
    | none => some none
    | some _ => (readName (trim left)).map some
  let (head, rest) := cut ' ' (trim (right.getD left))
  let (word, width) := cut '.' head
  let operands := match trim (rest.getD []) with
    | [] => some []
    | os => (parts ',' os).mapM (fun o => readOperand (trim o))
  match named, readMnemonic word, ((width.bind (readDigits 10)).bind Width.ofBits), operands with
  | some x, some i, some n, some os => some ⟨x, i, n, os⟩
  | _, _, _, _ => none

/-- One port of a listing: W / 4 digits, or `-` for an ignored port (30_encoding.md R53). -/
def printPort (n : Width) : Option (Word n.portBits) → List Char
  | none => ['-']
  | some v => hexDigits (n.portBits / 4) v.toNat

/-- The listing of a transaction with operation `i`, the ports it ignores shown as `-` (30_encoding.md R53, R42). -/
def printListing (n : Width) (i : Instr) (s0 s1 : Word n.portBits) : List Char :=
  "OP=".toList ++ hexDigits 1 (encode i).toNat
  ++ " S0=".toList ++ printPort n (if i.readsS0 then some s0 else none)
  ++ " S1=".toList ++ printPort n (if i.readsS1 then some s1 else none)

end Sys2Proof.Machine
end

