-- ==== Sys2Proof/Safety.lean ====
section
/-! DEFINITION. The terms in which claims about the machine are stated: the answer of one transaction, what a host owes
the block, and the invariants of a run. -/

namespace Sys2Proof

/-- What the host owes the block (70_reset_and_hazards.md R114 (1), (2)): a defined OP code, and every operand port the
selected operation reads driven. -/
def Txn.owed (t : Txn) : Bool :=
  match decode t.op with
  | none => false
  | some i => (!i.readsS0 || t.s0.isSome) && (!i.readsS1 || t.s1.isSome)

namespace Machine

/-- The RES of one transaction of operation `i` on instance `n`, issued in state `s` with the raw operands `s0` and
`s1` (00_scope.md R14). `none` if the machine stops. -/
def respond (s : State) (n : Width) (i : Instr) (s0 s1 : Word n.portBits) : Option (Word n.portBits) :=
  match evaluate (s.drive n (encode i) s0 s1) with
  | .next t => some (t.ports n).res
  | .fault _ => none
  | .refused _ => none

/-- That transaction completes, and its RES, read in the result format of the operation, denotes the integer `r`
(30_encoding.md R43 to R46). -/
def Answers (s : State) (n : Width) (i : Instr) (s0 s1 : Word n.portBits) (r : Int) : Prop :=
  ∃ v, respond s n i s0 s1 = some v ∧ resultValue i v = r

/-- The same with the raw operands given as integers, each driven as the W-bit pattern `bv_W` of itself (00_scope.md R9). -/
def AnswersInt (s : State) (n : Width) (i : Instr) (x y r : Int) : Prop :=
  Answers s n i (bv n.portBits x) (bv n.portBits y) r

/-- The word reached from `s0` by `k` transactions ADD(x, 1), each taking the RES of the one before (41_distance.md R66).
-/
def advance (s : State) (n : Width) (s0 : Word n.portBits) : Nat → Option (Word n.portBits)
  | 0 => some s0
  | k + 1 => (advance s n s0 k).bind (fun x => respond s n .add x (bv n.portBits 1))

/-- The state with the host looking at instance `n`. -/
def State.address (s : State) (n : Width) : State := { s with sel := n }

/-- Instance `n` is settled: evaluating its present inputs again changes nothing, so RES is the function of them
(10_state.md R16, R25, 70_reset_and_hazards.md R116). Of a reserved code nothing is asked (30_encoding.md R48). -/
def State.SettledAt (s : State) (n : Width) : Prop :=
  decode (s.ports n).op = none ∨ evaluate (s.address n) = .next (s.address n)

/-- All eight instances are settled: the state of the family between two transactions. -/
def State.Settled (s : State) : Prop := ∀ n : Width, s.SettledAt n

/-- No name of the host's table is bound twice (30_encoding.md R53; log entry 7). -/
def State.NamesDistinct (s : State) : Prop := (s.names.map Prod.fst).Nodup

/-- A safe run: the transactions still to be issued never present a reserved code (30_encoding.md R48). -/
def State.Safe (s : State) : Prop := ∀ t ∈ s.program, decode t.op ≠ none

end Machine

end Sys2Proof
end

