-- ==== Sys2Proof/Certificates/Slice0/Obligations.lean ====
section
/-! DEFINITION. The statements about the machine that are to be proved. In all of them a, b stand for reduced operands,
`n.ring` is R = 2^N, `n.half` is H = 2^(N-1) and `n.max` is MAX = 2^N - 1 (00_scope.md R6). -/

open Sys2Proof Sys2Proof.Machine

/-! ## Parameters and encoding -/

/-- 00_scope.md R4, R5: the widths are the eight of the closed set, and W is 32 or 64 and leaves two bits to spare. -/
def Obligations.WidthsAreTheClosedSet : Prop :=
  (∀ k : Nat, (∃ n : Width, n.bits = k) ↔ k ∈ [8, 16, 24, 32, 40, 48, 56, 62]) ∧
  (∀ (k : Nat) (n : Width), Width.ofBits k = some n ↔ n.bits = k) ∧
  (∀ n : Width, n.portBits = (if n.bits ≤ 31 then 32 else 64) ∧ n.bits + 2 ≤ n.portBits)

/-- 00_scope.md R6: R, H and MAX of each width, as the table prints them. -/
def Obligations.RingConstants : Prop :=
  Width.all.map (fun n => (n.bits, n.portBits, n.ring, n.half, n.max)) =
    [(8, 32, 256, 128, 255),
     (16, 32, 65536, 32768, 65535),
     (24, 32, 16777216, 8388608, 16777215),
     (32, 64, 4294967296, 2147483648, 4294967295),
     (40, 64, 1099511627776, 549755813888, 1099511627775),
     (48, 64, 281474976710656, 140737488355328, 281474976710655),
     (56, 64, 72057594037927936, 36028797018963968, 72057594037927935),
     (62, 64, 4611686018427387904, 2305843009213693952, 4611686018427387903)]

/-- 30_encoding.md R39, R47: the code words of the six operations, written out, and the two reserved ones. -/
def Obligations.OpCodesSelectTheOperations : Prop :=
  decode 0b000#3 = some .add ∧ decode 0b001#3 = some .bits ∧ decode 0b010#3 = some .dist ∧
  decode 0b011#3 = some .distu ∧ decode 0b100#3 = some .cmp ∧ decode 0b101#3 = some .inrange ∧
  decode 0b110#3 = none ∧ decode 0b111#3 = none

/-- 30_encoding.md R38: where each bit of OP, S0 and S1 stands in the bit string of a transaction, and its length. -/
def Obligations.TransactionStringLayout : Prop :=
  ∀ (n : Width) (op : OpCode) (s0 s1 : Word n.portBits),
    txnBits n = (if n.bits ≤ 24 then 67 else 131) ∧
    (∀ k, k < n.portBits → (packTxn n op s0 s1).getLsbD k = s1.getLsbD k) ∧
    (∀ k, k < n.portBits → (packTxn n op s0 s1).getLsbD (n.portBits + k) = s0.getLsbD k) ∧
    (∀ k, k < 3 → (packTxn n op s0 s1).getLsbD (2 * n.portBits + k) = op.getLsbD k)

/-- 30_encoding.md R38, R46: the bit string of a transaction decodes to its operation and both its operands, for every
width, operation and pair of raw operands. -/
def Obligations.DecodeOfEncodeIsTheTransaction : Prop :=
  ∀ (n : Width) (i : Instr) (s0 s1 : Word n.portBits), decodeTxn n (encodeTxn n i s0 s1) = some (i, s0, s1)

/-- 30_encoding.md R38, R48: a bit string either has a reserved code, or is the encoding of what it decodes to. -/
def Obligations.EveryStringIsReservedOrAnEncoding : Prop :=
  ∀ (n : Width) (v : BitVec (txnBits n)),
    (decodeTxn n v = none ↔ listedOp n v = 6#3 ∨ listedOp n v = 7#3) ∧
    (∀ i s0 s1, decodeTxn n v = some (i, s0, s1) → encodeTxn n i s0 s1 = v)

/-- 30_encoding.md R51: the canonical mnemonic and its lower-case spelling name the operation. -/
def Obligations.MnemonicsNameTheOperations : Prop :=
  ∀ i : Instr, readMnemonic (mnemonic i) = some i ∧ readMnemonic ((mnemonic i).map Char.toLower) = some i

/-! ## The step -/

/-- 00_scope.md R14, 20_memory.md R35, 30_encoding.md R53: a step runs the operation its OP decodes to on the ports the
host drives, and keeps RES under the transaction's name. -/
def Obligations.StepRunsTheDecodedTransaction : Prop :=
  ∀ (s : State) (t : Txn) (rest : List Txn) (i : Instr), s.program = t :: rest → decode t.op = some i →
    ∃ u, exec i ({ s with program := rest }.issue t) = .next u ∧ step s = .next (u.record t.name)

/-- 20_memory.md R30, 30_encoding.md R53: what issuing a transaction drives, and that it touches nothing else. The model's
own choices in it: the free values it draws (log entry 4), that RES of the addressed instance stays what it was until the
instance evaluates (log entry 13), and that the inputs of the other instances are held (log entry 16). -/
def Obligations.IssueDrivesTheAddressedInputs : Prop :=
  ∀ (s : State) (t : Txn),
    (s.issue t).sel = t.inst ∧ ((s.issue t).ports t.inst).op = t.op ∧
    ((s.issue t).ports t.inst).s0 = resolve s.names t.inst (floating t.inst s.draws) t.s0 ∧
    ((s.issue t).ports t.inst).s1 = resolve s.names t.inst (floating t.inst (s.draws + 1)) t.s1 ∧
    ((s.issue t).ports t.inst).res = (s.ports t.inst).res ∧
    (∀ m, m ≠ t.inst → (s.issue t).ports m = s.ports m) ∧
    (s.issue t).program = s.program ∧ (s.issue t).names = s.names

/-- 30_encoding.md R48, 60_exceptions.md R97, R100: a step never faults, and it is refused exactly when the host presents
a reserved code. -/
def Obligations.OnlyReservedCodesStopTheMachine : Prop :=
  ∀ s : State,
    (∀ f, step s ≠ .fault f) ∧
    (∀ r, step s = .refused r ↔
      r = .reservedOp ∧ ∃ t rest, s.program = t :: rest ∧ (t.op = 6#3 ∨ t.op = 7#3))

/-- 70_reset_and_hazards.md R115: with no transaction left a step leaves everything as it is. That it still counts as a
step is the model's choice (log entry 11). -/
def Obligations.NoTransactionNoChange : Prop := ∀ s : State, s.program = [] → step s = .next s

/-- The word of an opcode-table row, placed where the host issues next, is what the next step runs, on operands of zero
(log entries 6 and 9: the model's choice). -/
def Obligations.FetchedWordRunsNext : Prop :=
  ∀ (s : State) (nbits w : Nat) (i : Instr), decodeTableWord nbits w = some i →
    ∃ t, step (s.withFetchWord nbits w) = .next t ∧ t.program = s.program ∧ t.names = s.names ∧
      (t.ports s.sel).op = encode i ∧ (t.ports s.sel).s0 = 0 ∧ (t.ports s.sel).s1 = 0 ∧
      respond s s.sel i 0 0 = some (t.ports s.sel).res

/-- 60_exceptions.md R97, 70_reset_and_hazards.md R115: from every state whose transactions have defined codes the
machine runs to the end of its program without a stop, whatever the operands, and nothing is pending then. -/
def Obligations.DefinedProgramsRunToTheirEnd : Prop :=
  ∀ s : State, s.Safe → ∃ t, Sys2Proof.core.run s.program.length s = .next t ∧ t.program = []

/-- 30_encoding.md R51 to R53: every program written in the mnemonics is safe: it presents no reserved code. That loading
it drops the transactions pending before, and assembles a line with too many or too few operands, is the model's choice (log
entries 17 and 18). -/
def Obligations.WrittenProgramsAreSafe : Prop := ∀ (s : State) (p : List Line), (s.load p).Safe

/-- 70_reset_and_hazards.md R114 (1), (2), 30_encoding.md R51: a well-formed line drives a defined code and every port its
operation reads, and leaves undriven exactly the ports it does not read. -/
def Obligations.WellFormedLinesDriveWhatIsRead : Prop :=
  ∀ (env : NameWidths) (l : Line), l.wf env = true →
    l.assemble.owed = true ∧ l.assemble.s0.isSome = l.instr.readsS0 ∧ l.assemble.s1.isSome = l.instr.readsS1

/-- 70_reset_and_hazards.md R120, 30_encoding.md R53: the named results of a well-formed program do not depend on the
values that stand on undriven ports, which the model draws as free values (log entry 4): from two states that differ in
the draws alone it leaves the same names. That names known before outlive the load is the model's choice (log entry 17). -/
def Obligations.WellFormedProgramsSeeNoFreeValue : Prop :=
  ∀ (s : State) (d : Nat) (p : List Line), programWf [] p = true →
    ∃ t t', Sys2Proof.core.run p.length (s.load p) = .next t ∧
      Sys2Proof.core.run p.length (({ s with draws := d } : State).load p) = .next t' ∧ t'.names = t.names

/-! ## What the operations do -/

/-- 20_memory.md R31, 10_state.md R20: every operation completes in every state, and changes RES of the addressed
instance and nothing else: not its inputs, not another instance, nothing of the host's. -/
def Obligations.OperationsChangeOnlyRes : Prop :=
  ∀ (i : Instr) (s : State), ∃ t, exec i s = .next t ∧
    t.sel = s.sel ∧ t.program = s.program ∧ t.names = s.names ∧ t.draws = s.draws ∧
    (t.ports s.sel).op = s.opcode ∧ (t.ports s.sel).s0 = s.s0 ∧ (t.ports s.sel).s1 = s.s1 ∧
    (∀ m, m ≠ s.sel → t.ports m = s.ports m)

/-- 40_add.md R54: ADD completes; RES is the sum modulo 2^N, in all three forms of the rule, and zero above bit N-1. -/
def Obligations.AddPresentsTheModularSum : Prop :=
  ∀ s : State, ∃ t, exec .add s = .next t ∧
    uint (t.ports s.sel).res = (sint s.s0 + sint s.s1) % (2 ^ s.sel.bits : Int) ∧
    uint (t.ports s.sel).res = (uint (red s.sel s.s0) + uint (red s.sel s.s1)) % (2 ^ s.sel.bits : Int) ∧
    uint (t.ports s.sel).res = uint (red s.sel (s.s0 + s.s1)) ∧
    (∀ k, s.sel.bits ≤ k → (t.ports s.sel).res.getLsbD k = false)

/-- 43_bits_inrange.md R74: BITS completes and RES is N. -/
def Obligations.BitsPresentsTheWidth : Prop :=
  ∀ s : State, ∃ t, exec .bits s = .next t ∧ uint (t.ports s.sel).res = (s.sel.bits : Int)

/-- 41_distance.md R60, R61: DIST completes and RES is the closed form of the distance, of the reduced operands. -/
def Obligations.DistPresentsTheSignedDistance : Prop :=
  ∀ s : State, ∃ t, exec .dist s = .next t ∧
    ∀ a b d : Int, a = uint (red s.sel s.s0) → b = uint (red s.sel s.s1) → d = (b - a) % (2 ^ s.sel.bits : Int) →
      (d < s.sel.half → sint (t.ports s.sel).res = d) ∧
      ((s.sel.half : Int) < d → sint (t.ports s.sel).res = d - 2 ^ s.sel.bits) ∧
      (d = s.sel.half → a < b → sint (t.ports s.sel).res = -(s.sel.half : Int)) ∧
      (d = s.sel.half → b < a → sint (t.ports s.sel).res = s.sel.half)

/-- 41_distance.md R65: DISTU completes; RES is the magnitude of what DIST gives, and the shorter of the two ways round. -/
def Obligations.DistuPresentsTheMagnitude : Prop :=
  ∀ s : State, ∃ t u, exec .distu s = .next t ∧ exec .dist s = .next u ∧
    uint (t.ports s.sel).res = |sint (u.ports s.sel).res| ∧
    uint (t.ports s.sel).res =
      min (delta s.sel (reduced s.sel s.s0) (reduced s.sel s.s1))
        (delta s.sel (reduced s.sel s.s1) (reduced s.sel s.s0))

/-- 42_compare.md R71, R73: CMP completes, and RES is the negation of what DIST gives for the same operands, not clamped.
-/
def Obligations.CmpPresentsTheNegatedDistance : Prop :=
  ∀ s : State, ∃ t u, exec .cmp s = .next t ∧ exec .dist s = .next u ∧
    sint (t.ports s.sel).res = -(sint (u.ports s.sel).res) ∧
    sint (t.ports s.sel).res = -(serialDist s.sel (reduced s.sel s.s0) (reduced s.sel s.s1))

/-- 43_bits_inrange.md R75, 30_encoding.md R44: INRANGE completes; RES is 1 if 0 <= s0 <= MAX and 0 otherwise, s0 being
the raw signed operand. -/
def Obligations.InrangePresentsTheRangeBit : Prop :=
  ∀ s : State, ∃ t, exec .inrange s = .next t ∧
    ((0 ≤ sint s.s0 ∧ sint s.s0 ≤ 2 ^ s.sel.bits - 1) → (t.ports s.sel).res = 1) ∧
    (¬(0 ≤ sint s.s0 ∧ sint s.s0 ≤ 2 ^ s.sel.bits - 1) → (t.ports s.sel).res = 0)

/-- 43_bits_inrange.md R76: INRANGE is the complement of the OR of S0[W-1:N], and says that reduction leaves S0 as it is.
-/
def Obligations.InrangeIsUpperBitsClear : Prop :=
  ∀ (s : State) (n : Width) (s0 s1 : Word n.portBits), ∃ v, respond s n .inrange s0 s1 = some v ∧
    saysTrue v = upperBitsClear n s0 ∧
    (saysTrue v = true ↔ ∀ k, n.bits ≤ k → s0.getLsbD k = false) ∧
    (saysTrue v = true ↔ zext n.portBits (red n s0) = s0)

/-- 30_encoding.md R43: the results of ADD, BITS and DISTU read the same signed and unsigned, and their bounds. -/
def Obligations.UnsignedResultsReadAlike : Prop :=
  ∀ (s : State) (n : Width) (s0 s1 : Word n.portBits),
    (∃ v, respond s n .add s0 s1 = some v ∧ sint v = uint v ∧ uint v ≤ n.max) ∧
    (∃ v, respond s n .bits s0 s1 = some v ∧ sint v = uint v ∧ uint v = n.bits) ∧
    (∃ v, respond s n .distu s0 s1 = some v ∧ sint v = uint v ∧ uint v ≤ n.half)

/-- 30_encoding.md R45: the results of DIST and CMP are the sign extension of their low N + 1 bits, and lie in [-H, H]. -/
def Obligations.SignedResultsAreSignExtended : Prop :=
  ∀ (s : State) (n : Width) (i : Instr) (s0 s1 : Word n.portBits), i = .dist ∨ i = .cmp →
    ∃ v, respond s n i s0 s1 = some v ∧ v = sext n.portBits (v.extractLsb' 0 (n.bits + 1)) ∧
      -(n.half : Int) ≤ sint v ∧ sint v ≤ n.half

/-- 30_encoding.md R41, R42: of each port, only the bits the table names matter. -/
def Obligations.OnlyTheReadBitsMatter : Prop :=
  ∀ (s : State) (n : Width) (s0 s1 s0' s1' : Word n.portBits),
    (red n s0 = red n s0' → red n s1 = red n s1' → ∀ i, i = .add ∨ i = .dist ∨ i = .distu ∨ i = .cmp →
      respond s n i s0 s1 = respond s n i s0' s1') ∧
    respond s n .bits s0 s1 = respond s n .bits s0' s1' ∧
    respond s n .inrange s0 s1 = respond s n .inrange s0 s1'

/-- 40_add.md R55: the consequences of reduction for ADD: it subtracts a negated operand, an operand of R or more acts as
its residue, reducing first changes nothing, and the result is always valid. -/
def Obligations.AddReducesItsOperands : Prop :=
  ∀ (s : State) (n : Width) (s0 s1 : Word n.portBits),
    Answers s n .add s0 (bv n.portBits (-1)) ((sint s0 - 1) % (n.ring : Int)) ∧
    Answers s n .add s0 (-s1) ((sint s0 - sint s1) % (n.ring : Int)) ∧
    Answers s n .add (bv n.portBits n.ring) 0 0 ∧
    Answers s n .add (bv n.portBits (n.ring + 5)) 0 5 ∧
    respond s n .add s0 s1 = respond s n .add (zext n.portBits (red n s0)) (zext n.portBits (red n s1)) ∧
    (∃ v, respond s n .add s0 s1 = some v ∧ Answers s n .inrange v s1 1)

/-! ## The distance, its other forms and the tie -/

/-- 41_distance.md R57: the forward delta is an integer in [0, R-1], 0 for equal operands, adds up to R both ways, is the
N-bit subtraction with the borrow dropped, and counts the increments ADD(x, 1) from a to b. -/
def Obligations.DeltaCountsForwardIncrements : Prop :=
  ∀ (s : State) (n : Width) (s0 s1 : Word n.portBits),
    delta n (reduced n s0) (reduced n s1) = (uint (red n s1) - uint (red n s0)) % (2 ^ n.bits : Int) ∧
    0 ≤ delta n (reduced n s0) (reduced n s1) ∧ delta n (reduced n s0) (reduced n s1) < n.ring ∧
    (red n s0 = red n s1 → delta n (reduced n s0) (reduced n s1) = 0) ∧
    (red n s0 ≠ red n s1 →
      delta n (reduced n s0) (reduced n s1) + delta n (reduced n s1) (reduced n s0) = n.ring) ∧
    delta n (reduced n s0) (reduced n s1) = uint (red n s1 - red n s0) ∧
    (∃ v, advance s n s0 (delta n (reduced n s0) (reduced n s1)).toNat = some v ∧ red n v = red n s1) ∧
    (∀ k v, advance s n s0 k = some v → red n v = red n s1 →
      delta n (reduced n s0) (reduced n s1) ≤ k)

/-- 41_distance.md R58: the half-range check is symmetric, and the one partner of a word is the word with bit N-1
inverted. -/
def Obligations.HalfPartnerIsTheTopBitInverted : Prop :=
  ∀ (n : Width) (s0 s1 : Word n.portBits),
    (isHalf n (reduced n s0) (reduced n s1) = true ↔ delta n (reduced n s0) (reduced n s1) = n.half) ∧
    (isHalf n (reduced n s0) (reduced n s1) = true ↔ isHalf n (reduced n s1) (reduced n s0) = true) ∧
    (isHalf n (reduced n s0) (reduced n s1) = true ↔
      red n s1 - red n s0 = BitVec.twoPow n.bits (n.bits - 1)) ∧
    (isHalf n (reduced n s0) (reduced n s1) = true ↔
      red n s1 = red n s0 ^^^ BitVec.twoPow n.bits (n.bits - 1)) ∧
    (isHalf n (reduced n s0) (reduced n s1) = true ↔
      reduced n s1 = (reduced n s0 + n.half) % (n.ring : Int))

/-- 41_distance.md R59: at a tie DIST is -H when the reduced first operand is the smaller and +H when it is the larger,
and the two are never equal. -/
def Obligations.TieSignFollowsTheReducedOrder : Prop :=
  ∀ (s : State) (n : Width) (s0 s1 : Word n.portBits), isHalf n (reduced n s0) (reduced n s1) = true →
    (reduced n s0 < reduced n s1 → Answers s n .dist s0 s1 (-(n.half : Int))) ∧
    (reduced n s1 < reduced n s0 → Answers s n .dist s0 s1 n.half) ∧
    reduced n s0 ≠ reduced n s1

/-- 41_distance.md R63: the source's path algorithm (R62) and the closed form (R60) give the same integer on [0, MAX]. -/
def Obligations.PathAlgorithmEqualsClosedForm : Prop :=
  ∀ (n : Width) (a b : Int), 0 ≤ a → a ≤ n.max → 0 ≤ b → b ≤ n.max → distByPaths n a b = serialDist n a b

/-- 41_distance.md R64: the one-bit hardware form gives the distance for all raw operands, and at a tie the sign is bit
N-1 of S0, and the complement of bit N-1 of S1. -/
def Obligations.OneBitFormGivesTheDistance : Prop :=
  ∀ (s : State) (n : Width) (s0 s1 : Word n.portBits),
    Answers s n .dist s0 s1 (distByBits n s0 s1) ∧
    (isHalf n (reduced n s0) (reduced n s1) = false → Answers s n .dist s0 s1 (sint (red n s1 - red n s0))) ∧
    (isHalf n (reduced n s0) (reduced n s1) = true →
      Answers s n .dist s0 s1 (if s0.getLsbD (n.bits - 1) then (n.half : Int) else -(n.half : Int)) ∧
      s1.getLsbD (n.bits - 1) = !s0.getLsbD (n.bits - 1))

/-- 41_distance.md R66: a positive distance is the number of ADD(x, 1) that lead from S0 to S1, a negative one, negated,
the number that lead from S1 to S0, each no more than the other way round takes, and the distance is 0 exactly for operands reduced alike. -/
def Obligations.DistanceCountsTheIncrements : Prop :=
  ∀ (s : State) (n : Width) (s0 s1 : Word n.portBits), ∃ d : Int, Answers s n .dist s0 s1 d ∧
    (0 < d → d ≤ delta n (reduced n s1) (reduced n s0) ∧
      ∃ v, advance s n s0 d.toNat = some v ∧ red n v = red n s1) ∧
    (d < 0 → -d ≤ delta n (reduced n s0) (reduced n s1) ∧
      ∃ v, advance s n s1 (-d).toNat = some v ∧ red n v = red n s0) ∧
    (d = 0 ↔ red n s0 = red n s1)

/-- 41_distance.md R67: DIST, DISTU and CMP of raw operands are those of the reduced operands. -/
def Obligations.DistanceSeesReducedOperands : Prop :=
  ∀ (s : State) (n : Width) (i : Instr) (s0 s1 : Word n.portBits), i = .dist ∨ i = .distu ∨ i = .cmp →
    (∃ v, respond s n i s0 s1 = some v) ∧
    respond s n i s0 s1 = respond s n i (zext n.portBits (red n s0)) (zext n.portBits (red n s1))

/-- 41_distance.md R68: the results of DIST are exactly the integers of [-H, H]. -/
def Obligations.DistanceRangeIsAttained : Prop :=
  ∀ (s : State) (n : Width) (r : Int),
    (∃ s0 s1 : Word n.portBits, Answers s n .dist s0 s1 r) ↔ (-(n.half : Int) ≤ r ∧ r ≤ n.half)

/-- 42_compare.md R72: the sign of CMP, its zero, and its value at a tie; it answers every pair, antisymmetrically, but is
not transitive (0 precedes H - 1, which precedes 2H - 2, which 0 follows). -/
def Obligations.ComparisonSign : Prop :=
  ∀ (s : State) (n : Width) (s0 s1 : Word n.portBits), ∃ c d : Word n.portBits,
    respond s n .cmp s0 s1 = some c ∧ respond s n .dist s0 s1 = some d ∧
    (saysPrecedes c = true ↔ 0 < sint d) ∧ (saysFollows c = true ↔ sint d < 0) ∧
    (saysEqual c = true ↔ red n s0 = red n s1) ∧
    (isHalf n (reduced n s0) (reduced n s1) = true →
      (reduced n s0 < reduced n s1 → sint c = n.half) ∧
      (reduced n s1 < reduced n s0 → sint c = -(n.half : Int))) ∧
    Answers s n .cmp s1 s0 (-sint c) ∧
    AnswersInt s n .cmp 0 ((n.half : Int) - 1) (1 - (n.half : Int)) ∧
    AnswersInt s n .cmp ((n.half : Int) - 1) (2 * (n.half : Int) - 2) (1 - (n.half : Int)) ∧
    AnswersInt s n .cmp 0 (2 * (n.half : Int) - 2) 2

/-! ## The laws of 45_laws.md -/

/-- R78, R83: ADD lies in [0, MAX], is the sum modulo R, and always satisfies INRANGE. -/
def Obligations.AddStaysInRange : Prop :=
  ∀ (s : State) (n : Width) (s0 s1 : Word n.portBits), ∃ v, respond s n .add s0 s1 = some v ∧
    0 ≤ uint v ∧ uint v ≤ n.max ∧ uint v = (sint s0 + sint s1) % (n.ring : Int) ∧
    ∀ x : Word n.portBits, Answers s n .inrange v x 1

/-- R79, R80, R93: DIST and CMP are antisymmetric, for all raw operands and so for all valid ones. -/
def Obligations.DistanceAndComparisonAntisymmetric : Prop :=
  ∀ (s : State) (n : Width) (s0 s1 : Word n.portBits),
    (∃ d : Int, Answers s n .dist s0 s1 d ∧ Answers s n .dist s1 s0 (-d)) ∧
    (∃ c : Int, Answers s n .cmp s0 s1 c ∧ Answers s n .cmp s1 s0 (-c))

/-- R81, R89: DIST, CMP and DISTU of a word with itself are 0. -/
def Obligations.DistanceReflexive : Prop :=
  ∀ (s : State) (n : Width) (s0 : Word n.portBits),
    Answers s n .dist s0 s0 0 ∧ Answers s n .cmp s0 s0 0 ∧ Answers s n .distu s0 s0 0

/-- R82: the unit step, across the wrap too. -/
def Obligations.UnitStep : Prop :=
  ∀ (s : State) (n : Width) (s0 : Word n.portBits), ∃ v, respond s n .add s0 (bv n.portBits 1) = some v ∧
    Answers s n .dist s0 v 1 ∧ Answers s n .dist v s0 (-1) ∧ Answers s n .cmp s0 v (-1)

/-- R84: INRANGE is 1 if and only if 0 <= s < R, and so 0 for R and for -1. -/
def Obligations.InrangeIffValid : Prop :=
  ∀ (s : State) (n : Width) (s0 s1 : Word n.portBits),
    (Answers s n .inrange s0 s1 1 ↔ (0 ≤ sint s0 ∧ sint s0 < n.ring)) ∧
    (Answers s n .inrange s0 s1 0 ↔ ¬(0 ≤ sint s0 ∧ sint s0 < n.ring)) ∧
    Answers s n .inrange (bv n.portBits n.ring) s1 0 ∧ Answers s n .inrange (bv n.portBits (-1)) s1 0

/-- R85: no distance exceeds H in magnitude. -/
def Obligations.MagnitudeBound : Prop :=
  ∀ (s : State) (n : Width) (s0 s1 : Word n.portBits), ∃ d u c : Int,
    Answers s n .dist s0 s1 d ∧ Answers s n .distu s0 s1 u ∧ Answers s n .cmp s0 s1 c ∧
    |d| ≤ n.half ∧ u ≤ n.half ∧ |c| ≤ n.half

/-- R86: the half-ring tie of (0, R/2) in both orders, for DIST, CMP and DISTU, and every tie pair of valid operands. -/
def Obligations.HalfRingDeterminism : Prop :=
  ∀ (s : State) (n : Width),
    AnswersInt s n .dist 0 n.half (-(n.half : Int)) ∧
    AnswersInt s n .dist n.half 0 n.half ∧
    AnswersInt s n .cmp 0 n.half n.half ∧
    AnswersInt s n .cmp n.half 0 (-(n.half : Int)) ∧
    AnswersInt s n .distu 0 n.half n.half ∧
    AnswersInt s n .distu n.half 0 n.half ∧
    ∀ k : Int, 0 ≤ k → k < n.half →
      AnswersInt s n .dist k (k + n.half) (-(n.half : Int)) ∧
      AnswersInt s n .dist (k + n.half) k n.half

/-- R87, R88: the wrap scenarios of the 8-bit and 24-bit instances. -/
def Obligations.WrapScenarios : Prop :=
  ∀ s : State,
    AnswersInt s .n8 .dist 255 0 1 ∧ AnswersInt s .n8 .dist 254 0 2 ∧
    AnswersInt s .n8 .dist 253 0 3 ∧ AnswersInt s .n8 .dist 0 255 (-1) ∧
    AnswersInt s .n8 .add 255 1 0 ∧
    (∃ v, respond s .n8 .add (bv Width.n8.portBits 255) (bv Width.n8.portBits 1) = some v ∧
      Answers s .n8 .dist (bv Width.n8.portBits 255) v 1) ∧
    AnswersInt s .n24 .dist 16777215 0 1 ∧ AnswersInt s .n24 .dist 16777214 0 2 ∧
    AnswersInt s .n24 .dist 16777213 0 3

/-- R90: the walk across the wrap: for every width, six ADD(x, 1) from R - 4 give R-3, R-2, R-1, 0, 1, 2, and between
neighbours DIST is 1 and CMP is -1. -/
def Obligations.WalkAcrossTheWrap : Prop :=
  ∀ (s : State) (n : Width) (k : Nat), k < 6 → ∃ x y : Word n.portBits,
    advance s n (bv n.portBits (n.ring - 4)) k = some x ∧
    advance s n (bv n.portBits (n.ring - 4)) (k + 1) = some y ∧
    uint x = (if k < 4 then (n.ring : Int) - 4 + k else k - 4) ∧
    uint y = (if k < 3 then (n.ring : Int) - 3 + k else k - 3) ∧
    Answers s n .dist x y 1 ∧ Answers s n .cmp x y (-1)

/-- R91: DIST is congruent to s1 - s0 modulo R, and is the one integer of that class in (-H, H), or, in the class of H,
one of -H and H. -/
def Obligations.DistanceIsTheLeastResidue : Prop :=
  ∀ (s : State) (n : Width) (s0 s1 : Word n.portBits), ∃ d : Int, Answers s n .dist s0 s1 d ∧
    (n.ring : Int) ∣ d - (sint s1 - sint s0) ∧
    (∀ e : Int, (n.ring : Int) ∣ e - (sint s1 - sint s0) → -(n.half : Int) < e → e < n.half → e = d) ∧
    (isHalf n (reduced n s0) (reduced n s1) = true →
      d = (if reduced n s0 < reduced n s1 then -(n.half : Int) else n.half))

/-- R92: ADD undoes DIST for all raw operands; DIST undoes ADD of k for -H < k < H, and for k = H or -H gives the tie. -/
def Obligations.AddUndoesDist : Prop :=
  ∀ (s : State) (n : Width) (s0 s1 : Word n.portBits),
    (∃ d, respond s n .dist s0 s1 = some d ∧ Answers s n .add s0 d (uint (red n s1))) ∧
    ∀ k : Int, -(n.half : Int) ≤ k → k ≤ n.half → 0 ≤ sint s0 → sint s0 ≤ n.max →
      ∃ v, respond s n .add s0 (bv n.portBits k) = some v ∧
        (-(n.half : Int) < k → k < n.half → Answers s n .dist s0 v k) ∧
        (k = n.half ∨ k = -(n.half : Int) → sint s0 < n.half → Answers s n .dist s0 v (-(n.half : Int))) ∧
        (k = n.half ∨ k = -(n.half : Int) → (n.half : Int) ≤ sint s0 → Answers s n .dist s0 v n.half)

/-- R94 (1) to (3): CMP is not transitive, DIST is not additive, and the tie is not always negative. -/
def Obligations.WhatIsNotALaw : Prop :=
  ∀ s : State,
    (AnswersInt s .n8 .cmp 0 100 (-100) ∧ AnswersInt s .n8 .cmp 100 200 (-100) ∧
      AnswersInt s .n8 .cmp 0 200 56) ∧
    (AnswersInt s .n8 .dist 0 100 100 ∧ AnswersInt s .n8 .dist 100 200 100 ∧
      AnswersInt s .n8 .dist 0 200 (-56)) ∧
    (∀ n : Width, AnswersInt s n .dist 0 n.half (-(n.half : Int)) ∧
      AnswersInt s n .dist n.half 0 n.half)

/-- R96: CMP is the negated and DISTU the absolute DIST, for every pair of raw operands, and DISTU is symmetric. -/
def Obligations.DerivedOperationsAgreeWithDist : Prop :=
  ∀ (s : State) (n : Width) (s0 s1 : Word n.portBits), ∃ d : Int, Answers s n .dist s0 s1 d ∧
    Answers s n .cmp s0 s1 (-d) ∧ Answers s n .distu s0 s1 |d| ∧ Answers s n .distu s1 s0 |d|

/-! ## Independence, results kept by the host, invariants -/

/-- 10_state.md R15, 70_reset_and_hazards.md R120: RES of a transaction depends only on the instance, OP and the values
presented on the ports the operation reads: two steps from any two states that agree on those give the same RES. -/
def Obligations.ResultDependsOnlyOnTheTransaction : Prop :=
  ∀ (s s' : State) (t : Txn) (rest rest' : List Txn) (i : Instr),
    s.program = t :: rest → s'.program = t :: rest' → decode t.op = some i →
    (i.readsS0 = true → ((s'.issue t).ports t.inst).s0 = ((s.issue t).ports t.inst).s0) →
    (i.readsS1 = true → ((s'.issue t).ports t.inst).s1 = ((s.issue t).ports t.inst).s1) →
    ∃ u u', step s = .next u ∧ step s' = .next u' ∧ (u'.ports t.inst).res = (u.ports t.inst).res

/-- 20_memory.md R33: transactions on two different instances commute: every port ends the same in either order, and each
gives the RES it gives alone. That the inputs of one instance are held while the other runs is the model's choice (log
entry 16). -/
def Obligations.TransactionsCommute : Prop :=
  ∀ (s : State) (n m : Width) (i j : Instr) (a b : Word n.portBits) (c d : Word m.portBits), n ≠ m →
    ∃ u v u' v',
      evaluate (s.drive n (encode i) a b) = .next u ∧ evaluate (u.drive m (encode j) c d) = .next v ∧
      evaluate (s.drive m (encode j) c d) = .next u' ∧ evaluate (u'.drive n (encode i) a b) = .next v' ∧
      (∀ k, v.ports k = v'.ports k) ∧
      respond s n i a b = some (v.ports n).res ∧ respond s m j c d = some (v.ports m).res

/-- 10_state.md R24, 20_memory.md R31: the same transaction gives the same RES whatever was computed before. -/
def Obligations.HistoryDoesNotMatter : Prop :=
  ∀ (s s' : State) (n : Width) (i : Instr) (a b : Word n.portBits),
    ∃ v, respond s n i a b = some v ∧ respond s' n i a b = some v

/-- 20_memory.md R31: evaluating the inputs present a second time changes nothing. -/
def Obligations.EvaluationIsIdempotent : Prop :=
  ∀ s t : State, evaluate s = .next t → evaluate t = .next t

/-- 30_encoding.md R53: a named transaction's RES is kept under its name and no other name changes; without a name nothing
is kept. That it replaces an earlier result of the same name, and that names that differ in case are two, are the model's
choices (log entries 7 and 19). -/
def Obligations.NamedResultIsKept : Prop :=
  ∀ (s u : State) (t : Txn) (rest : List Txn), s.program = t :: rest → step s = .next u →
    u.sel = t.inst ∧ u.program = rest ∧
    (t.name = none → u.names = s.names) ∧
    (∀ x, t.name = some x →
      u.names.lookup x = some ⟨t.inst, (u.ports t.inst).res⟩ ∧
      ∀ y, y ≠ x → u.names.lookup y = s.names.lookup y)

/-- 30_encoding.md R53: the host drives a named result unchanged on a port of the same width, and a literal as `bv_W` of
itself; neither depends on a free value. That a literal outside the range of its port is driven at all, as its pattern
modulo 2^W, is the model's choice (log entry 10). -/
def Obligations.DrivenOperandsAreNotFree : Prop :=
  ∀ (names : List (Name × Result)) (n : Width) (free : Word n.portBits),
    (∀ x r, names.lookup x = some r → r.inst.portBits = n.portBits →
      uint (resolve names n free (some (.name x))) = uint r.val) ∧
    (∀ i : Int, resolve names n free (some (.dec i)) = bv n.portBits i) ∧
    (∀ v : Nat, resolve names n free (some (.hex v)) = bv n.portBits v)

/-- 10_state.md R16, R25: between two transactions RES of every instance is the function of its present inputs; every
step keeps that. -/
def Obligations.StepKeepsEveryInstanceSettled : Prop :=
  ∀ s t : State, s.Settled → step s = .next t → t.Settled

/-- The host's table binds no name twice, case included, and every step keeps that (log entries 7 and 19: the model's
choice). -/
def Obligations.StepKeepsNamesDistinct : Prop :=
  ∀ s t : State, s.NamesDistinct → step s = .next t → t.NamesDistinct

/-- At reset nothing is pending, no name is defined and every instance is settled; which inputs stand on the ports is the
model's choice (log entries 2 and 3). -/
def Obligations.ResetIsSettledAndEmpty : Prop :=
  State.reset.program = [] ∧ State.reset.names = [] ∧ State.reset.Settled ∧ State.reset.NamesDistinct ∧ State.reset.Safe
end

