-- ==== Sys2Proof/Laws/Width.lean ====
section
/-! SUPPORT. The arithmetic of the eight widths, said once so that no proof splits on them again. -/

namespace Sys2Proof.Width

theorem ring_eq_two_half (n : Width) : n.ring = 2 * n.half := by cases n <;> decide

theorem half_ge (n : Width) : 128 ≤ n.half := by cases n <;> decide

theorem max_eq (n : Width) : n.max = n.ring - 1 := rfl

theorem ring_pos (n : Width) : 0 < n.ring := by cases n <;> decide

theorem bits_add_two_le (n : Width) : n.bits + 2 ≤ n.portBits := by cases n <;> decide

theorem bits_ge (n : Width) : 8 ≤ n.bits := by cases n <;> decide

theorem bits_lt (n : Width) : n.bits < 2 ^ 6 := by cases n <;> decide

theorem portBits_ge (n : Width) : 32 ≤ n.portBits := by cases n <;> decide

theorem ring_dvd_port (n : Width) : n.ring ∣ 2 ^ n.portBits := Nat.pow_dvd_pow 2 (by have := n.bits_add_two_le; omega)

theorem four_ring_le_port (n : Width) : 4 * n.ring ≤ 2 ^ n.portBits := by cases n <;> decide

theorem mem_all (n : Width) : n ∈ all := by cases n <;> decide

end Sys2Proof.Width
end

