-- ==== Sys2Proof/Laws/Words.lean ====
section
/-! SUPPORT. What the readings, the reduction and the result formats give, over the integers: one lemma each
(00_scope.md R9, R10; 30_encoding.md R43 to R45). -/

namespace Sys2Proof.Machine

theorem uint_bv {k : Nat} {r : Int} (h0 : 0 ≤ r) (h1 : r < 2 ^ k) : uint (bv k r) = r := by
  have : r % (2 ^ k : Int) = r := Int.emod_eq_of_lt h0 h1
  simp only [uint, bv, BitVec.toNat_ofInt]
  push_cast
  rw [this, Int.toNat_of_nonneg h0]

theorem uint_zext {w k : Nat} (v : Word w) (h : w ≤ k) : uint (zext k v) = uint v := by
  simp only [uint, zext, BitVec.toNat_setWidth]
  rw [Nat.mod_eq_of_lt (lt_of_lt_of_le v.isLt (Nat.pow_le_pow_right (by omega) h))]

theorem sint_bv {k : Nat} {r : Int} (h0 : -(2 ^ k) ≤ r) (h1 : r < 2 ^ k) : sint (bv (k + 1) r) = r := by
  simp only [sint, bv]
  exact BitVec.toInt_ofInt_eq_self (by omega) (by simpa using h0) (by simpa using h1)

theorem sint_sext {w k : Nat} (v : Word w) (h : w ≤ k) : sint (sext k v) = sint v := by
  simp only [sint, sext]
  exact BitVec.toInt_signExtend_of_le h

/-- A word whose top bit is clear reads the same signed and unsigned (30_encoding.md R43). -/
theorem sint_eq_uint {w : Nat} (v : Word w) (h : 2 * uint v < 2 ^ w) : sint v = uint v := by
  simp only [sint, uint] at *
  exact BitVec.toInt_eq_toNat_of_lt (by exact_mod_cast h)

theorem reduced_eq_emod (n : Width) (v : Word n.portBits) : reduced n v = sint v % (n.ring : Int) := by
  have hring : (n.ring : Int) ∣ ((2 ^ n.portBits : Nat) : Int) := by exact_mod_cast n.ring_dvd_port
  have h : reduced n v = ((v.toNat % n.ring : Nat) : Int) := by
    simp [reduced, uint, red, BitVec.extractLsb'_toNat, Width.ring]
  rw [h, sint, BitVec.toInt_eq_toNat_bmod, Int.natCast_emod]
  obtain ⟨c, hc⟩ := hring
  have key : (v.toNat : Int).bmod (2 ^ n.portBits) % (n.ring : Int) = (v.toNat : Int) % (n.ring : Int) := by
    rw [Int.bmod_def]
    have e := Int.mul_ediv_add_emod (v.toNat : Int) ((2 ^ n.portBits : Nat) : Int)
    split
    · rw [Int.emod_emod_of_dvd _ ⟨c, hc⟩]
    · rw [hc, Int.sub_mul_emod_self_left, ← hc, Int.emod_emod_of_dvd _ ⟨c, hc⟩]
  rw [key]

theorem reduced_nonneg (n : Width) (v : Word n.portBits) : 0 ≤ reduced n v := by simp [reduced, uint]

theorem reduced_lt (n : Width) (v : Word n.portBits) : reduced n v < (n.ring : Int) := by
  rw [reduced_eq_emod]
  exact Int.emod_lt_of_pos _ (by exact_mod_cast n.ring_pos)

/-- Two operands are reduced alike exactly when their low N bits are the same (00_scope.md R10). -/
theorem red_eq_iff_reduced_eq (n : Width) (v v' : Word n.portBits) : red n v = red n v' ↔ reduced n v = reduced n v' := by
  simp [reduced, uint, BitVec.toNat_inj]

theorem uint_unsignedResult (n : Width) {r : Int} (h0 : 0 ≤ r) (h1 : r < (n.ring : Int)) :
    uint (unsignedResult n r) = r := by
  have := n.bits_add_two_le
  rw [unsignedResult, uint_zext _ (by omega), uint_bv h0 (by simpa [Width.ring] using h1)]

theorem uint_constantResult (n : Width) : uint (constantResult n (n.bits : Int)) = (n.bits : Int) := by
  have h := n.portBits_ge
  have h' := n.bits_lt
  rw [constantResult, uint_zext _ (by omega), uint_bv (by omega) (by exact_mod_cast h')]

theorem uint_booleanResult (n : Width) (c : Bool) : uint (booleanResult n c) = if c then 1 else 0 := by
  have h := n.portBits_ge
  rw [booleanResult, uint_zext _ (by omega)]
  cases c <;> rfl

theorem sint_signedResult (n : Width) {r : Int} (h0 : -(n.half : Int) ≤ r) (h1 : r ≤ (n.half : Int)) :
    sint (signedResult n r) = r := by
  have hw := n.bits_add_two_le
  have hb := n.bits_ge
  have hr : (2 ^ n.bits : Int) = 2 * (n.half : Int) := by exact_mod_cast n.ring_eq_two_half
  have hh := n.half_ge
  rw [signedResult, sint_sext _ (by omega), sint_bv (by omega) (by omega)]

/-- A host that keeps a result and drives it on a port of the same instance drives it unchanged (30_encoding.md R53). -/
theorem carry_same (r : Result) (free : Word r.inst.portBits) : carry r r.inst free = r.val := by
  simp [carry]

end Sys2Proof.Machine
end

