-- ==== Sys2Proof/Laws/Distance.lean ====
section
/-! SUPPORT. Everything the distance of two reduced operands can be, said once (41_distance.md R60). -/

namespace Sys2Proof.Machine

/-- The forward delta of two integers of [0, MAX] is their difference, or that plus R (41_distance.md R57). -/
theorem delta_cases (n : Width) {a b : Int} (ha0 : 0 ≤ a) (ha1 : a < n.ring) (hb0 : 0 ≤ b) (hb1 : b < n.ring) :
    (a ≤ b ∧ delta n a b = b - a) ∨ (b < a ∧ delta n a b = b - a + n.ring) := by
  rcases lt_or_ge b a with h | h
  · refine .inr ⟨h, ?_⟩
    rw [delta, ← Int.add_emod_right, Int.emod_eq_of_lt (by omega) (by omega)]
  · exact .inl ⟨h, by rw [delta, Int.emod_eq_of_lt (by omega) (by omega)]⟩

/-- The distance by the numeric order of the reduced operands and by how far apart they are. -/
theorem dist_cases (n : Width) {a b : Int} (ha0 : 0 ≤ a) (ha1 : a < n.ring) (hb0 : 0 ≤ b) (hb1 : b < n.ring) :
    (-(n.half : Int) < b - a ∧ b - a < n.half ∧ serialDist n a b = b - a) ∨
    ((n.half : Int) < b - a ∧ serialDist n a b = b - a - n.ring) ∨
    (b - a < -(n.half : Int) ∧ serialDist n a b = b - a + n.ring) ∨
    (b - a = n.half ∧ serialDist n a b = -(n.half : Int)) ∨
    (b - a = -(n.half : Int) ∧ serialDist n a b = n.half) := by
  have hr : (n.ring : Int) = 2 * n.half := by exact_mod_cast n.ring_eq_two_half
  have hh := n.half_ge
  unfold serialDist isHalf tieBreak
  rcases delta_cases n ha0 ha1 hb0 hb1 with ⟨_, hd⟩ | ⟨_, hd⟩ <;> rw [hd] <;>
    simp only [beq_iff_eq] <;> split_ifs <;> omega

/-- The distance stays in [-H, +H], whatever the operands (41_distance.md R68). -/
theorem distOf_bounds (n : Width) (a b : Word n.portBits) :
    -(n.half : Int) ≤ distOf n a b ∧ distOf n a b ≤ (n.half : Int) := by
  have hr : (n.ring : Int) = 2 * n.half := by exact_mod_cast n.ring_eq_two_half
  have hh := n.half_ge
  have hc := dist_cases n (reduced_nonneg n a) (reduced_lt n a) (reduced_nonneg n b) (reduced_lt n b)
  have h1 := reduced_nonneg n a; have h2 := reduced_lt n a
  have h3 := reduced_nonneg n b; have h4 := reduced_lt n b
  unfold distOf
  omega

theorem sint_distResult (n : Width) (a b : Word n.portBits) : sint (distResult n a b) = distOf n a b :=
  sint_signedResult n (distOf_bounds n a b).1 (distOf_bounds n a b).2

theorem sint_cmpResult (n : Width) (a b : Word n.portBits) : sint (cmpResult n a b) = -(distOf n a b) := by
  have h := distOf_bounds n a b
  exact sint_signedResult n (by omega) (by omega)

theorem uint_distuResult (n : Width) (a b : Word n.portBits) :
    uint (distuResult n a b) = ((distOf n a b).natAbs : Int) := by
  have h := distOf_bounds n a b
  have hr : (n.ring : Int) = 2 * n.half := by exact_mod_cast n.ring_eq_two_half
  have hh := n.half_ge
  exact uint_unsignedResult n (by omega) (by omega)

end Sys2Proof.Machine
end

