-- ==== Sys2Proof/Laws/Results.lean ====
section
/-! SUPPORT. The integer each RES denotes: one lemma per operation (30_encoding.md R43 to R46). -/

namespace Sys2Proof.Machine

theorem uint_addResult (n : Width) (a b : Word n.portBits) :
    uint (addResult n a b) = (sint a + sint b) % (n.ring : Int) := by
  have h : (0 : Int) < n.ring := by exact_mod_cast n.ring_pos
  exact uint_unsignedResult n (Int.emod_nonneg _ (by omega)) (Int.emod_lt_of_pos _ h)

theorem uint_bitsResult (n : Width) : uint (bitsResult n) = (n.bits : Int) := uint_constantResult n

theorem uint_inrangeResult (n : Width) (a : Word n.portBits) :
    uint (inrangeResult n a) = if 0 ≤ sint a ∧ sint a < n.ring then 1 else 0 := by
  have hm : (n.max : Int) = n.ring - 1 := by have := n.ring_pos; rw [Width.max_eq]; omega
  rw [inrangeResult, uint_booleanResult]
  by_cases h : 0 ≤ sint a ∧ sint a < n.ring
  · rw [if_pos h, if_pos]
    simp [inRange]
    omega
  · rw [if_neg h, if_neg]
    simp [inRange]
    omega

/-- A word whose unsigned reading is a serial value reads the same signed (30_encoding.md R43). -/
theorem sint_eq_uint_of_lt_ring (n : Width) (v : Word n.portBits) (h : uint v < n.ring) : sint v = uint v := by
  have h4 : 4 * (n.ring : Int) ≤ 2 ^ n.portBits := by exact_mod_cast n.four_ring_le_port
  have h0 : 0 ≤ uint v := by simp [uint]
  exact sint_eq_uint v (by omega)

/-- A literal of the signed range that is driven on a port reduces to itself modulo R (00_scope.md R9, R10). -/
theorem reduced_bv (n : Width) (i : Int) : reduced n (bv n.portBits i) = i % (n.ring : Int) := by
  have h : reduced n (bv n.portBits i) = uint (bv n.portBits i) % (n.ring : Int) := by
    simp [reduced, uint, red, BitVec.extractLsb'_toNat, Width.ring]
  have hp : (0 : Int) < ((2 ^ n.portBits : Nat) : Int) := by positivity
  rw [h]
  simp only [uint, bv, BitVec.toNat_ofInt]
  rw [Int.toNat_of_nonneg (Int.emod_nonneg _ (by omega)), Int.emod_emod_of_dvd]
  exact_mod_cast n.ring_dvd_port

end Sys2Proof.Machine
end

