-- ==== Sys2Proof/Laws/State.lean ====
section
/-! SUPPORT. One lemma per field per update of State: no later proof unfolds a record update or an accessor. -/

namespace Sys2Proof.Machine.State

variable (s : State) (n m : Width)

/-! Replacing the ports of one instance. -/

@[simp] theorem setPorts_sel (p) : (s.setPorts n p).sel = s.sel := by cases n <;> rfl
@[simp] theorem setPorts_program (p) : (s.setPorts n p).program = s.program := by cases n <;> rfl
@[simp] theorem setPorts_names (p) : (s.setPorts n p).names = s.names := by cases n <;> rfl
@[simp] theorem setPorts_draws (p) : (s.setPorts n p).draws = s.draws := by cases n <;> rfl

@[simp] theorem ports_setPorts_same (p) : (s.setPorts n p).ports n = p := by cases n <;> rfl

theorem ports_setPorts_ne (p) (h : m ≠ n) : (s.setPorts n p).ports m = s.ports m := by
  cases n <;> cases m <;> first | rfl | exact absurd rfl h

@[simp] theorem setPorts_self : s.setPorts n (s.ports n) = s := by cases n <;> rfl

/-- Two states are the same when every part of them is: the ports instance by instance. -/
theorem ext_ports {s t : State} (hsel : s.sel = t.sel) (hports : ∀ n, s.ports n = t.ports n)
    (hprogram : s.program = t.program) (hnames : s.names = t.names) (hdraws : s.draws = t.draws) : s = t := by
  obtain ⟨_, _, _, _, _, _, _, _, _, _, _, _⟩ := s
  obtain ⟨_, _, _, _, _, _, _, _, _, _, _, _⟩ := t
  have h := fun n => hports n
  have h8 := h .n8; have h16 := h .n16; have h24 := h .n24; have h32 := h .n32
  have h40 := h .n40; have h48 := h .n48; have h56 := h .n56; have h62 := h .n62
  simp only [ports] at h8 h16 h24 h32 h40 h48 h56 h62
  simp_all

/-! Updates of the host's fields leave the ports alone. -/

@[simp] theorem ports_withSel (k : Width) : ({ s with sel := k } : State).ports n = s.ports n := by cases n <;> rfl
@[simp] theorem ports_withProgram (p) : ({ s with program := p } : State).ports n = s.ports n := by cases n <;> rfl
@[simp] theorem ports_withNames (p) : ({ s with names := p } : State).ports n = s.ports n := by cases n <;> rfl
@[simp] theorem ports_withDraws (p) : ({ s with draws := p } : State).ports n = s.ports n := by cases n <;> rfl

/-! Presenting a result. -/

@[simp] theorem present_sel (v) : (s.present v).sel = s.sel := by simp [present]
@[simp] theorem present_program (v) : (s.present v).program = s.program := by simp [present]
@[simp] theorem present_names (v) : (s.present v).names = s.names := by simp [present]
@[simp] theorem present_draws (v) : (s.present v).draws = s.draws := by simp [present]

theorem ports_present_sel (v) :
    (s.present v).ports s.sel = ⟨(s.ports s.sel).op, (s.ports s.sel).s0, (s.ports s.sel).s1, v⟩ := by simp [present]

theorem present_op (v) : ((s.present v).ports s.sel).op = s.opcode := by
  rw [ports_present_sel]; rfl
theorem present_s0 (v) : ((s.present v).ports s.sel).s0 = s.s0 := by
  rw [ports_present_sel]; rfl
theorem present_s1 (v) : ((s.present v).ports s.sel).s1 = s.s1 := by
  rw [ports_present_sel]; rfl
theorem present_res (v) : ((s.present v).ports s.sel).res = v := congrArg Ports.res (s.ports_present_sel v)

theorem ports_present_ne (v) (h : m ≠ s.sel) : (s.present v).ports m = s.ports m :=
  ports_setPorts_ne s s.sel m _ h

/-! Driving the inputs of an instance. -/

variable (op : OpCode) (a b : Word n.portBits)

@[simp] theorem drive_sel : (s.drive n op a b).sel = n := rfl
@[simp] theorem drive_program : (s.drive n op a b).program = s.program := by simp [drive]
@[simp] theorem drive_names : (s.drive n op a b).names = s.names := by simp [drive]
@[simp] theorem drive_draws : (s.drive n op a b).draws = s.draws := by simp [drive]

theorem ports_drive_same :
    (s.drive n op a b).ports n = ⟨op, a, b, (s.ports n).res⟩ :=
  (ports_withSel _ n n).trans (ports_setPorts_same s n _)

theorem ports_drive_ne (h : m ≠ n) : (s.drive n op a b).ports m = s.ports m :=
  (ports_withSel _ m n).trans (ports_setPorts_ne s n m _ h)

theorem drive_opcode : (s.drive n op a b).opcode = op := congrArg Ports.op (s.ports_drive_same n op a b)
theorem drive_s0 : (s.drive n op a b).s0 = a := congrArg Ports.s0 (s.ports_drive_same n op a b)
theorem drive_s1 : (s.drive n op a b).s1 = b := congrArg Ports.s1 (s.ports_drive_same n op a b)

/-! Looking at an instance. -/

@[simp] theorem address_sel : (s.address n).sel = n := rfl
@[simp] theorem address_program : (s.address n).program = s.program := rfl
@[simp] theorem address_names : (s.address n).names = s.names := rfl
@[simp] theorem address_draws : (s.address n).draws = s.draws := rfl
@[simp] theorem ports_address : (s.address n).ports m = s.ports m := by simp [address]

/-! Issuing a transaction. -/

variable (t : Txn)

@[simp] theorem issue_sel : (s.issue t).sel = t.inst := rfl
@[simp] theorem issue_program : (s.issue t).program = s.program := by simp [issue]
@[simp] theorem issue_names : (s.issue t).names = s.names := by simp [issue]
@[simp] theorem issue_draws : (s.issue t).draws = s.draws + 2 := rfl

theorem ports_issue_same : (s.issue t).ports t.inst =
    ⟨t.op, resolve s.names t.inst (floating t.inst s.draws) t.s0,
      resolve s.names t.inst (floating t.inst (s.draws + 1)) t.s1, (s.ports t.inst).res⟩ :=
  (ports_withDraws _ t.inst _).trans (ports_drive_same s t.inst t.op _ _)

theorem ports_issue_ne (h : m ≠ t.inst) : (s.issue t).ports m = s.ports m :=
  (ports_withDraws _ m _).trans (ports_drive_ne s t.inst m t.op _ _ h)

theorem issue_opcode : (s.issue t).opcode = t.op := congrArg Ports.op (s.ports_issue_same t)
theorem issue_s0 : (s.issue t).s0 = resolve s.names t.inst (floating t.inst s.draws) t.s0 :=
  congrArg Ports.s0 (s.ports_issue_same t)
theorem issue_s1 : (s.issue t).s1 = resolve s.names t.inst (floating t.inst (s.draws + 1)) t.s1 :=
  congrArg Ports.s1 (s.ports_issue_same t)

/-! Keeping a result. -/

variable (x : Option Name)

@[simp] theorem record_sel : (s.record x).sel = s.sel := by cases x <;> rfl
@[simp] theorem record_program : (s.record x).program = s.program := by cases x <;> rfl
@[simp] theorem record_draws : (s.record x).draws = s.draws := by cases x <;> rfl
@[simp] theorem ports_record : (s.record x).ports m = s.ports m := by cases x <;> simp [record]
@[simp] theorem record_names_none : (s.record none).names = s.names := rfl
@[simp] theorem record_names_some (y : Name) : (s.record (some y)).names = bindName s.names y s.taken := rfl

theorem taken_eq {s : State} {n : Width} (h : s.sel = n) : s.taken = ⟨n, (s.ports n).res⟩ := by subst h; rfl

/-! Giving the host a program, or an opcode-table word. -/

variable (p : List Line) (nbits w : Nat)

@[simp] theorem load_sel : (s.load p).sel = s.sel := rfl
@[simp] theorem load_program : (s.load p).program = p.map Line.assemble := rfl
@[simp] theorem load_names : (s.load p).names = s.names := rfl
@[simp] theorem load_draws : (s.load p).draws = s.draws := rfl
@[simp] theorem ports_load : (s.load p).ports m = s.ports m := by simp [load]

@[simp] theorem withFetchWord_sel : (s.withFetchWord nbits w).sel = s.sel := rfl
@[simp] theorem withFetchWord_program :
    (s.withFetchWord nbits w).program = tableTxn s.sel nbits w :: s.program := rfl
@[simp] theorem withFetchWord_names : (s.withFetchWord nbits w).names = s.names := rfl
@[simp] theorem withFetchWord_draws : (s.withFetchWord nbits w).draws = s.draws := rfl
@[simp] theorem ports_withFetchWord : (s.withFetchWord nbits w).ports m = s.ports m := by simp [withFetchWord]

end Sys2Proof.Machine.State
end

