-- ==== Sys2Proof/Laws/Exec.lean ====
section
/-! SUPPORT. What an operation, an evaluation and a step can do: one inversion lemma each, which proofs cite instead of
unfolding the machine. -/

namespace Sys2Proof.Machine

/-- RES of an operation as a function of N and the operands presented (10_state.md R15). -/
def resultOf (i : Instr) (n : Width) (a b : Word n.portBits) : Word n.portBits :=
  match i with
  | .add => addResult n a b
  | .bits => bitsResult n
  | .dist => distResult n a b
  | .distu => distuResult n a b
  | .cmp => cmpResult n a b
  | .inrange => inrangeResult n a

/-- Every operation completes, and its one effect is RES of the addressed instance. -/
theorem exec_eq (i : Instr) (s : State) : exec i s = .next (s.present (resultOf i s.sel s.s0 s.s1)) := by
  cases i <;> rfl

/-- The same with the addressed instance named: the form to use when it is known. -/
theorem exec_at {i : Instr} {s : State} {n : Width} (h : s.sel = n) :
    exec i s = .next (s.setPorts n ⟨(s.ports n).op, (s.ports n).s0, (s.ports n).s1,
      resultOf i n (s.ports n).s0 (s.ports n).s1⟩) := by
  subst h
  exact exec_eq i s

theorem decode_encode (i : Instr) : decode (encode i) = some i := by cases i <;> rfl

theorem encode_of_decode {op : OpCode} {i : Instr} (h : decode op = some i) : encode i = op := by
  revert h
  revert i
  revert op
  decide

theorem decode_eq_none_iff (op : OpCode) : decode op = none ↔ op = 6#3 ∨ op = 7#3 := by
  revert op
  decide

/-- An evaluation of a defined code presents the result of its operation. -/
theorem evaluate_at {s : State} {n : Width} {i : Instr} (h : s.sel = n) (hi : decode (s.ports n).op = some i) :
    evaluate s = .next (s.setPorts n ⟨(s.ports n).op, (s.ports n).s0, (s.ports n).s1,
      resultOf i n (s.ports n).s0 (s.ports n).s1⟩) := by
  subst h
  have hi' : decode s.opcode = some i := hi
  simp only [evaluate, hi']
  exact exec_eq i s

/-- An evaluation of a reserved code is refused. -/
theorem evaluate_reserved {s : State} {n : Width} (h : s.sel = n) (hi : decode (s.ports n).op = none) :
    evaluate s = .refused .reservedOp := by
  subst h
  have hi' : decode s.opcode = none := hi
  simp only [evaluate, hi']

/-- The evaluation of inputs the host has just driven. -/
theorem evaluate_drive (s : State) (n : Width) (i : Instr) (a b : Word n.portBits) :
    evaluate (s.drive n (encode i) a b) =
      .next ((s.drive n (encode i) a b).setPorts n ⟨encode i, a, b, resultOf i n a b⟩) := by
  have hp := s.ports_drive_same n (encode i) a b
  have h := evaluate_at (i := i) (s.drive_sel n (encode i) a b) (by rw [hp]; exact decode_encode i)
  rwa [hp] at h

/-- The answer of one transaction. -/
theorem respond_eq (s : State) (n : Width) (i : Instr) (a b : Word n.portBits) :
    respond s n i a b = some (resultOf i n a b) := by
  simp only [respond, evaluate_drive, State.ports_setPorts_same]

/-- A step does nothing without a transaction, refuses a reserved code, and otherwise issues the transaction, presents
the result of its operation on the addressed instance and records it. -/
theorem step_cases (s : State) :
    (s.program = [] ∧ step s = .next s) ∨
    (∃ t rest, s.program = t :: rest ∧ decode t.op = none ∧ step s = .refused .reservedOp) ∨
    (∃ t rest i, s.program = t :: rest ∧ decode t.op = some i ∧
      step s = .next ((({ s with program := rest }.issue t).setPorts t.inst
        ⟨t.op, resolve s.names t.inst (floating t.inst s.draws) t.s0,
          resolve s.names t.inst (floating t.inst (s.draws + 1)) t.s1,
          resultOf i t.inst (resolve s.names t.inst (floating t.inst s.draws) t.s0)
            (resolve s.names t.inst (floating t.inst (s.draws + 1)) t.s1)⟩).record t.name)) := by
  unfold step
  cases hp : s.program with
  | nil => exact .inl ⟨rfl, rfl⟩
  | cons t rest =>
    refine .inr ?_
    have hports := State.ports_issue_same { s with program := rest } t
    have hsel := State.issue_sel { s with program := rest } t
    cases hi : decode t.op with
    | none =>
      refine .inl ⟨t, rest, rfl, hi, ?_⟩
      simp only [evaluate_reserved hsel (by rw [hports]; exact hi)]
    | some i =>
      refine .inr ⟨t, rest, i, rfl, hi, ?_⟩
      have he := evaluate_at (i := i) hsel (by rw [hports]; exact hi)
      rw [hports] at he
      simp only [he]

/-- Everything a step that runs a transaction leaves, field by field. -/
theorem step_next {s u : State} {t : Txn} {rest : List Txn} (hp : s.program = t :: rest) (h : step s = .next u) :
    ∃ i, decode t.op = some i ∧ u.sel = t.inst ∧ u.program = rest ∧ u.draws = s.draws + 2 ∧
      (∀ m, m ≠ t.inst → u.ports m = s.ports m) ∧
      u.ports t.inst = ⟨t.op, resolve s.names t.inst (floating t.inst s.draws) t.s0,
        resolve s.names t.inst (floating t.inst (s.draws + 1)) t.s1,
        resultOf i t.inst (resolve s.names t.inst (floating t.inst s.draws) t.s0)
          (resolve s.names t.inst (floating t.inst (s.draws + 1)) t.s1)⟩ ∧
      u.names = (match t.name with
        | none => s.names
        | some x => bindName s.names x ⟨t.inst, (u.ports t.inst).res⟩) := by
  rcases step_cases s with ⟨hp', _⟩ | ⟨_, _, _, _, h'⟩ | ⟨t', rest', i, hp', hi, h'⟩
  · simp [hp] at hp'
  · simp [h] at h'
  · obtain ⟨rfl, rfl⟩ : t = t' ∧ rest = rest' := by simpa [hp] using hp'
    obtain rfl : u = _ := by simpa [h] using h'
    refine ⟨i, hi, by simp, by simp, by simp, fun m hm => ?_, by simp, ?_⟩
    · rw [State.ports_record, State.ports_setPorts_ne _ _ _ _ hm, State.ports_issue_ne _ _ _ hm,
        State.ports_withProgram]
    · cases hx : t.name with
      | none => simp
      | some x =>
        rw [State.record_names_some, State.taken_eq ((State.setPorts_sel _ _ _).trans (State.issue_sel _ t))]
        simp

end Sys2Proof.Machine
end

