-- ==== Sys2Proof/Laws/PerInstr.lean ====
section
/-! SUPPORT. Statements made per instruction: the code of an operation selects it, and no other operation has it
(30_encoding.md R46, R47). -/

namespace Sys2Proof.Laws.Code

/-- The code of the operation decodes to it, and an operation with the same code is the same. -/
def Statement (i : Instr) : Prop := decode (encode i) = some i ∧ ∀ j : Instr, encode j = encode i → j = i

theorem add : Statement .add := ⟨rfl, fun j h => by cases j <;> simp_all [encode]⟩
theorem bits : Statement .bits := ⟨rfl, fun j h => by cases j <;> simp_all [encode]⟩
theorem dist : Statement .dist := ⟨rfl, fun j h => by cases j <;> simp_all [encode]⟩
theorem distu : Statement .distu := ⟨rfl, fun j h => by cases j <;> simp_all [encode]⟩
theorem cmp : Statement .cmp := ⟨rfl, fun j h => by cases j <;> simp_all [encode]⟩
theorem inrange : Statement .inrange := ⟨rfl, fun j h => by cases j <;> simp_all [encode]⟩

end Sys2Proof.Laws.Code
end

