-- ==== Sys2Proof/Tests/Slice0.lean ====
section
/-! SUPPORT. Tests. The expected values are those of the spec (95_test_vectors.md, 96_test_vectors_wide.md, the examples
of the rules), never the model's own answers. The witnesses at the end show states and operands that meet the hypotheses
of the statements. -/

namespace Sys2Proof.Tests

open Sys2Proof Sys2Proof.Machine

/-! ## Well-formedness: one ill-formed term for each check (30_encoding.md R51, R53) -/

theorem test_wf_accepts : (Line.mk (some "x1") .add .n8 [.name "x0", .dec 1]).wf [("x0", .n8)] = true := by decide
theorem test_wf_decimal_too_large : (Operand.dec 2147483648).wf [] .n8 = false := by decide
theorem test_wf_decimal_too_small : (Operand.dec (-2147483649)).wf [] .n8 = false := by decide
theorem test_wf_pattern_too_wide : (Operand.hex 0x100000000).wf [] .n8 = false := by decide
theorem test_wf_name_undefined : (Operand.name "x0").wf [] .n8 = false := by decide
theorem test_wf_name_of_other_port_width : (Operand.name "x0").wf [("x0", .n62)] .n8 = false := by decide
theorem test_wf_operand_missing : (Line.mk none .add .n8 [.dec 1]).wf [] = false := by decide
theorem test_wf_operand_superfluous : (Line.mk none .bits .n8 [.dec 1]).wf [] = false := by decide
theorem test_wf_operand_ill_formed : (Line.mk none .inrange .n8 [.name "y"]).wf [] = false := by decide
theorem test_wf_name_used_before_its_line :
    programWf [] [⟨none, .add, .n8, [.name "x", .dec 1]⟩, ⟨some "x", .bits, .n8, []⟩] = false := by decide

/-! ## Decoding: one transaction of each operation, N = 8, written out as OP, 32 bits of S0, 32 bits of S1
(30_encoding.md R38, R46) -/

theorem test_decode_add :
    decodeTxn .n8 (0b0000000000000000000000000001111111100000000000000000000000000000001#67) = some (.add, 0x000000FF#32, 0x00000001#32) := by decide
theorem test_decode_bits :
    decodeTxn .n8 (0b0011101111010101101101111101110111100010010001101000101011001111000#67) = some (.bits, 0xDEADBEEF#32, 0x12345678#32) := by decide
theorem test_decode_dist :
    decodeTxn .n8 (0b0100000000000000000000000000000000000000000000000000000000011111111#67) = some (.dist, 0x00000000#32, 0x000000FF#32) := by decide
theorem test_decode_distu :
    decodeTxn .n8 (0b0110000000000000000000000001000000000000000000000000000000000000000#67) = some (.distu, 0x00000080#32, 0x00000000#32) := by decide
theorem test_decode_cmp :
    decodeTxn .n8 (0b1000000000000000000000000000000000000000000000000000000000000000101#67) = some (.cmp, 0x00000000#32, 0x00000005#32) := by decide
theorem test_decode_inrange :
    decodeTxn .n8 (0b1010000000000000000000000010000000011111111111111111111111111111111#67) = some (.inrange, 0x00000100#32, 0xFFFFFFFF#32) := by decide
theorem test_decode_reserved_6 :
    decodeTxn .n8 (0b1100000000000000000000000000000000100000000000000000000000000000010#67) = none := by decide
theorem test_decode_reserved_7 :
    decodeTxn .n8 (0b1110000000000000000000000000000000100000000000000000000000000000010#67) = none := by decide
theorem test_decode_wide :
    decodeTxn .n62 (0b010#3 ++ (0x3FFFFFFFFFFFFFFF#64 ++ 0x0000000000000001#64)) =
      some (.dist, 0x3FFFFFFFFFFFFFFF#64, 0x0000000000000001#64) := by decide
theorem test_table_words :
    (List.range 8).map (decodeTableWord 8) =
      [some .add, some .bits, some .dist, some .distu, some .cmp, some .inrange, none, none] := by decide

/-! ## Operations: RES of one transaction after reset (95_test_vectors.md sections 1 and 2, 96_test_vectors_wide.md) -/

/-- The host about to issue one transaction. -/
def about (t : Txn) : State := { State.reset with program := [t] }

/-- RES of instance `n` after one step, as a number. -/
def resAfter (n : Width) (s : State) : Option Nat :=
  match step s with
  | .next t => some (t.ports n).res.toNat
  | .fault _ => none
  | .refused _ => none

/-- RES of one transaction with two decimal operands. -/
def ask (n : Width) (i : Instr) (x y : Int) : Option Nat :=
  resAfter n (about ⟨none, n, encode i, some (.dec x), some (.dec y)⟩)

theorem test_add_wraps : ask .n8 .add 255 1 = some 0 := by decide
theorem test_add_no_port_overflow : ask .n8 .add 2147483647 2147483647 = some 0xFE := by decide
theorem test_bits_24 : ask .n24 .bits 0 0 = some 0x18 := by decide
theorem test_bits_62_ports_ignored :
    resAfter .n62 (about ⟨none, .n62, 0b001#3, none, some (.hex 0x12345678)⟩) = some 0x3E := by decide
theorem test_dist_tie_on_reduced_operands : ask .n8 .dist 256 128 = some 0xFFFFFF80 := by decide
theorem test_dist_tie_other_order : ask .n62 .dist 2305843009213693952 0 = some 0x2000000000000000 := by decide
theorem test_distu_tie : ask .n8 .distu 128 0 = some 0x80 := by decide
theorem test_distu_past_tie : ask .n32 .distu 0 2147483649 = some 0x7FFFFFFF := by decide
theorem test_cmp_not_clamped : ask .n8 .cmp 0 5 = some 0xFFFFFFFB := by decide
theorem test_cmp_tie : ask .n24 .cmp 8388608 0 = some 0xFF800000 := by decide
theorem test_inrange_max : ask .n32 .inrange 4294967295 7 = some 1 := by decide
theorem test_inrange_ring : ask .n62 .inrange 4611686018427387904 7 = some 0 := by decide

/-! ## The step: reserved codes, results kept and used, an operation's undriven port -/

theorem test_reserved_code_refused :
    (match step (State.reset.withFetchWord 8 6) with | .refused .reservedOp => true | _ => false) = true := by decide

/-- Line 1 of program P4: the result is kept as a W-bit pattern (95_test_vectors.md section 4). -/
theorem test_result_kept :
    (match step (about ⟨some "p", .n24, 0b010#3, some (.dec 0), some (.dec 8388608)⟩) with
      | .next t => t.names.lookup "p" | _ => none) = some ⟨.n24, 0xFF800000#32⟩ := by decide

/-- Line 3 of program P4: the kept pattern is driven unchanged (95_test_vectors.md section 4). -/
theorem test_result_used :
    resAfter .n24 { about ⟨some "r1", .n24, 0b000#3, some (.dec 0), some (.name "p")⟩ with
      names := [("p", ⟨.n24, 0xFF800000#32⟩)] } = some 0x00800000 := by decide

/-! ## Written forms (30_encoding.md R51, R53; 95_test_vectors.md section 4, P1 line 2, P2 lines 1, 2 and 9) -/

theorem test_read_line :
    readLine "x1 = ADD.8 x0, 1 ; -> 253".toList = some ⟨some "x1", .add, .n8, [.name "x0", .dec 1]⟩ := by decide
theorem test_read_line_lower_case : readLine "inrange.16 0x0000FFFA".toList =
    some ⟨none, .inrange, .n16, [.hex 0xFFFA]⟩ := by decide
theorem test_read_line_no_operands : readLine "n = BITS.16".toList = some ⟨some "n", .bits, .n16, []⟩ := by decide
theorem test_read_line_negative :
    readLine "back = ADD.16 head, -10".toList = some ⟨some "back", .add, .n16, [.name "head", .dec (-10)]⟩ := by decide
theorem test_read_line_no_such_width : readLine "ADD.12 1, 2".toList = none := by decide
theorem test_print_line :
    printLine ⟨some "x1", .add, .n8, [.name "x0", .dec 1]⟩ none = "x1 = ADD.8 x0, 1".toList := by decide
theorem test_print_line_result :
    printLine ⟨none, .dist, .n8, [.dec 0, .hex 255]⟩ (some (-1)) = "DIST.8 0, 0x000000FF ; -> -1".toList := by decide
theorem test_listing : printListing .n8 .add 0xFC#32 0x1#32 = "OP=0 S0=000000FC S1=00000001".toList := by decide
theorem test_listing_ignored_ports : printListing .n16 .inrange 0xFFFA#32 0#32 = "OP=5 S0=0000FFFA S1=-".toList := by decide

/-! ## Witnesses: states and operands that meet the hypotheses of the statements, each clause at a boundary -/

/-- The 8-bit instance with OP of ADD and these operands on its ports. -/
def holding (x y : Int) : State := State.reset.drive .n8 0 (bv 32 x) (bv 32 y)

theorem witness_string_decodes : decodeTxn .n16 (encodeTxn .n16 .cmp 1#32 2#32) = some (.cmp, 1#32, 2#32) := by decide
theorem witness_transaction_pending :
    (about ⟨some "p", .n24, 0b010#3, some (.dec 0), some (.dec 8388608)⟩).program =
      [⟨some "p", .n24, 0b010#3, some (.dec 0), some (.dec 8388608)⟩] ∧ decode 0b010#3 = some .dist := by decide
theorem witness_reserved_pending :
    (about ⟨none, .n8, 6#3, none, none⟩).program = [⟨none, .n8, 6#3, none, none⟩] := by decide
theorem witness_no_transaction : State.reset.program = [] := by decide
theorem witness_table_word : decodeTableWord 8 4 = some .cmp := by decide
theorem witness_safe : (State.reset.withFetchWord 8 4).Safe := by
  intro t ht
  simp [State.reset] at ht
  subst ht
  decide
theorem witness_line_wf : (Line.mk none .inrange .n62 [.dec (-1)]).wf [] = true := by decide
theorem witness_program_wf :
    programWf [] [⟨some "x", .add, .n8, [.dec 252, .dec 0]⟩, ⟨some "y", .add, .n8, [.name "x", .dec 1]⟩] = true := by decide

/-- DIST: one short of the tie, one past it, the tie in both orders (41_distance.md R60, R61). -/
theorem witness_dist_clauses :
    (128 - 1 - 0 : Int) % 2 ^ 8 < Width.n8.half ∧ (Width.n8.half : Int) < (129 - 0) % 2 ^ 8 ∧
    (128 - 0 : Int) % 2 ^ 8 = Width.n8.half ∧ (0 - 128 : Int) % 2 ^ 8 = Width.n8.half ∧
    uint (red .n8 (bv 32 128)) = 128 ∧ uint (red .n8 (bv 32 129)) = 129 := by decide

/-- INRANGE: MAX is valid; R and -1 are not (43_bits_inrange.md R75). -/
theorem witness_inrange_clauses :
    (0 ≤ sint (bv 32 255) ∧ sint (bv 32 255) ≤ 2 ^ 8 - 1) ∧ ¬(0 ≤ sint (bv 32 256) ∧ sint (bv 32 256) ≤ 2 ^ 8 - 1) ∧
    ¬(0 ≤ sint (bv 32 (-1)) ∧ sint (bv 32 (-1)) ≤ 2 ^ 8 - 1) := by decide

theorem witness_reduced_alike : red .n8 (bv 32 (-1)) = red .n8 (bv 32 255) ∧ red .n8 (bv 32 256) = red .n8 (bv 32 0) := by
  decide
theorem witness_reduced_apart : red .n8 (bv 32 0) ≠ red .n8 (bv 32 255) := by decide

/-- The tie, with the reduced first operand the smaller, and the larger (41_distance.md R59). -/
theorem witness_tie_clauses :
    (isHalf .n8 (reduced .n8 (bv 32 256)) (reduced .n8 (bv 32 128)) = true ∧
      reduced .n8 (bv 32 256) < reduced .n8 (bv 32 128)) ∧
    (isHalf .n8 (reduced .n8 (bv 32 255)) (reduced .n8 (bv 32 127)) = true ∧
      reduced .n8 (bv 32 127) < reduced .n8 (bv 32 255)) := by decide
theorem witness_no_tie : isHalf .n8 (reduced .n8 (bv 32 0)) (reduced .n8 (bv 32 127)) = false := by decide
theorem witness_path_operands : (0 : Int) ≤ 255 ∧ (255 : Int) ≤ Width.n8.max ∧ (0 : Int) ≤ 0 ∧ (0 : Int) ≤ Width.n8.max := by
  decide

/-- A positive, a negative and a zero distance (41_distance.md R66). -/
theorem witness_distance_signs :
    distOf .n8 (bv 32 128) (bv 32 0) = 128 ∧ distOf .n8 (bv 32 0) (bv 32 128) = -128 ∧ distOf .n8 (bv 32 256) (bv 32 0) = 0 := by
  decide
theorem witness_advance : ∀ s : State, advance s .n8 (bv 32 255) 1 = some (bv 32 0) := by
  intro s
  simp only [advance, Option.bind_some, respond_eq]
  decide
theorem witness_tie_offset : (0 : Int) ≤ 127 ∧ (127 : Int) < Width.n8.half ∧ (0 : Nat) < 6 ∧ (5 : Nat) < 6 := by decide

/-- The class of s1 - s0 = 256 - 0 on 8 bits holds 0, inside (-H, H) (45_laws.md R91). -/
theorem witness_least_residue :
    (Width.n8.ring : Int) ∣ 0 - (sint (bv 32 256) - sint (bv 32 0)) ∧ -(Width.n8.half : Int) < 0 ∧ 0 < (Width.n8.half : Int) := by
  decide

/-- The offsets of 45_laws.md R92: inside (-H, H), and H and -H with an origin below H and one at H. -/
theorem witness_offsets :
    (-(Width.n8.half : Int) ≤ 127 ∧ (127 : Int) < Width.n8.half) ∧ (-(Width.n8.half : Int) ≤ -128 ∧ (128 : Int) ≤ Width.n8.half) ∧
    (0 ≤ sint (bv 32 127) ∧ sint (bv 32 127) < Width.n8.half) ∧
    ((Width.n8.half : Int) ≤ sint (bv 32 128) ∧ sint (bv 32 128) ≤ Width.n8.max) := by decide

/-- Two states that differ in everything the result may not depend on: the earlier RES, the names, the rest. -/
theorem witness_same_transaction :
    ((({ about ⟨none, .n8, 0#3, some (.dec 5), some (.dec (-1))⟩ with p8 := ⟨7, 1, 2, 3⟩ } : State).issue
        ⟨none, .n8, 0#3, some (.dec 5), some (.dec (-1))⟩).ports .n8).s0 =
      ((State.reset.issue ⟨none, .n8, 0#3, some (.dec 5), some (.dec (-1))⟩).ports .n8).s0 ∧
    ((({ about ⟨none, .n8, 0#3, some (.dec 5), some (.dec (-1))⟩ with p8 := ⟨7, 1, 2, 3⟩ } : State).issue
        ⟨none, .n8, 0#3, some (.dec 5), some (.dec (-1))⟩).ports .n8).s1 =
      ((State.reset.issue ⟨none, .n8, 0#3, some (.dec 5), some (.dec (-1))⟩).ports .n8).s1 := by decide
theorem witness_two_instances : Width.n8 ≠ Width.n62 := by decide
theorem witness_evaluates : 
    (match evaluate (holding 255 1) with | .next t => t.p8.res == 0#32 | _ => false) = true := by decide
theorem witness_name_bound :
    ([("p", ⟨.n24, 0xFF800000#32⟩)] : List (Name × Result)).lookup "p" = some ⟨.n24, 0xFF800000#32⟩ ∧
      Width.n24.portBits = Width.n8.portBits := by decide

/-- A settled state with a transaction still to be issued, which the step runs. -/
theorem witness_settled_and_steps :
    (State.reset.withFetchWord 8 2).Settled ∧ (State.reset.withFetchWord 8 2).NamesDistinct ∧
      ∃ t, step (State.reset.withFetchWord 8 2) = .next t := by
  refine ⟨fun n => .inr ?_, by simp [State.NamesDistinct, State.reset], _, rfl⟩
  cases n <;> rfl

end Sys2Proof.Tests
end

/-! ## 00_scope.md: the widths, the step, and what RES and the ports depend on -/

/-! Facts about the widths (00_scope.md R4, R5). -/

namespace Sys2Proof.Width

/-- W by the threshold of 00_scope.md R5. -/
theorem portBits_eq_ite (n : Width) : n.portBits = if n.bits ≤ 31 then 32 else 64 := by cases n <;> decide

theorem all_map_bits : all.map bits = [8, 16, 24, 32, 40, 48, 56, 62] := rfl

theorem exists_bits_eq_iff (k : Nat) : (∃ n : Width, n.bits = k) ↔ k ∈ [8, 16, 24, 32, 40, 48, 56, 62] := by
  rw [← all_map_bits]
  simp [mem_all]

theorem ofBits_bits (n : Width) : ofBits n.bits = some n := by cases n <;> rfl

theorem ofBits_eq_some_iff (k : Nat) (n : Width) : ofBits k = some n ↔ n.bits = k := by
  constructor
  · intro h
    simpa using List.find?_some h
  · rintro rfl
    exact n.ofBits_bits

end Sys2Proof.Width

/-! The operands the host drives, and the shape of a step and of an evaluation. -/

namespace Sys2Proof.Machine

/-- A named result crosses ports of equal W unchanged, whichever the instances (30_encoding.md R53). -/
theorem uint_carry_of_portBits_eq (r : Result) {n : Width} (free : Word n.portBits)
    (h : r.inst.portBits = n.portBits) : uint (carry r n free) = uint r.val := by
  rw [carry, if_pos h.ge]
  exact uint_zext r.val h.le

theorem resolve_name {names : List (Name × Result)} {x : Name} {r : Result} (h : names.lookup x = some r)
    (n : Width) (free : Word n.portBits) : resolve names n free (some (.name x)) = carry r n free := by
  simp only [resolve, h]

theorem resolve_dec (names : List (Name × Result)) (n : Width) (free : Word n.portBits) (i : Int) :
    resolve names n free (some (.dec i)) = bv n.portBits i := rfl

theorem resolve_hex (names : List (Name × Result)) (n : Width) (free : Word n.portBits) (v : Nat) :
    resolve names n free (some (.hex v)) = bv n.portBits v := (BitVec.ofInt_natCast n.portBits v).symm

/-- RES takes nothing from a port its operation does not read (30_encoding.md R42). -/
theorem resultOf_congr {i : Instr} {n : Width} {a b a' b' : Word n.portBits}
    (ha : i.readsS0 = true → a' = a) (hb : i.readsS1 = true → b' = b) :
    resultOf i n a' b' = resultOf i n a b := by
  cases i with
  | bits => rfl
  | inrange => rw [ha rfl]; rfl
  | add | dist | distu | cmp => rw [ha rfl, hb rfl]

theorem evaluate_eq_exec {s : State} {i : Instr} (h : decode s.opcode = some i) : evaluate s = exec i s := by
  simp only [evaluate, h]

theorem step_of_evaluate {s u : State} {t : Txn} {rest : List Txn} (hp : s.program = t :: rest)
    (he : evaluate ({ s with program := rest }.issue t) = .next u) : step s = .next (u.record t.name) := by
  simp only [step, hp, he]

/-- A transaction with a defined code is run by its operation and its RES is recorded (00_scope.md R14). -/
theorem exists_exec_step {s : State} {t : Txn} {rest : List Txn} {i : Instr} (hp : s.program = t :: rest)
    (hi : decode t.op = some i) :
    ∃ u, exec i ({ s with program := rest }.issue t) = .next u ∧ step s = .next (u.record t.name) := by
  have hop : decode (({ s with program := rest } : State).issue t).opcode = some i := by
    rw [State.issue_opcode]; exact hi
  have hexec := exec_eq i (({ s with program := rest } : State).issue t)
  exact ⟨_, hexec, step_of_evaluate hp ((evaluate_eq_exec hop).trans hexec)⟩

/-- RES after a step, as a function of what issuing the transaction puts on the ports (10_state.md R15). -/
theorem exists_step_res {s : State} {t : Txn} {rest : List Txn} {i : Instr} (hp : s.program = t :: rest)
    (hi : decode t.op = some i) :
    ∃ u, step s = .next u ∧ (u.ports t.inst).res =
      resultOf i t.inst ((s.issue t).ports t.inst).s0 ((s.issue t).ports t.inst).s1 := by
  obtain ⟨u, -, hstep⟩ := exists_exec_step hp hi
  obtain ⟨j, hj, -, -, -, -, hports, -⟩ := step_next hp hstep
  obtain rfl : i = j := Option.some.inj (hi.symm.trans hj)
  exact ⟨_, hstep, by rw [hports, State.ports_issue_same]⟩

/-- One transaction on its own: what it leaves on the ports of its instance, and that it leaves the ports of every other
instance alone (00_scope.md R7). -/
theorem exists_evaluate_drive (s : State) (n : Width) (i : Instr) (a b : Word n.portBits) :
    ∃ u, evaluate (s.drive n (encode i) a b) = .next u ∧ u.ports n = ⟨encode i, a, b, resultOf i n a b⟩ ∧
      ∀ m, m ≠ n → u.ports m = s.ports m :=
  ⟨_, evaluate_drive s n i a b, State.ports_setPorts_same _ _ _, fun _ hm =>
    (State.ports_setPorts_ne _ _ _ _ hm).trans (State.ports_drive_ne _ _ _ _ _ _ hm)⟩

end Sys2Proof.Machine

/-! The obligations of the scope. -/

namespace Sys2Proof.Scope

open Sys2Proof Sys2Proof.Machine

/-- Settles O51: both steps complete with `resultOf` of the ports driven, which ignores the ports not read. -/
theorem resultDependsOnlyOnTheTransaction : Obligations.ResultDependsOnlyOnTheTransaction := by
  intro s s' t rest rest' i hp hp' hi h0 h1
  obtain ⟨u, hu, hres⟩ := exists_step_res hp hi
  obtain ⟨u', hu', hres'⟩ := exists_step_res hp' hi
  refine ⟨u, u', hu, hu', ?_⟩
  rw [hres, hres']
  exact resultOf_congr h0 h1

/-- Settles O52: each transaction writes its own instance's ports from its operands alone and leaves the others, so the
two orders agree on every instance. -/
theorem transactionsCommute : Obligations.TransactionsCommute := by
  intro s n m i j a b c d hnm
  obtain ⟨u, hu, hun, huo⟩ := exists_evaluate_drive s n i a b
  obtain ⟨v, hv, hvm, hvo⟩ := exists_evaluate_drive u m j c d
  obtain ⟨u', hu', hum', huo'⟩ := exists_evaluate_drive s m j c d
  obtain ⟨v', hv', hvn', hvo'⟩ := exists_evaluate_drive u' n i a b
  have hvn : v.ports n = ⟨encode i, a, b, resultOf i n a b⟩ := (hvo n hnm).trans hun
  refine ⟨u, v, u', v', hu, hv, hu', hv', fun k => ?_, ?_, ?_⟩
  · by_cases hkn : k = n
    · subst hkn
      rw [hvn, hvn']
    · by_cases hkm : k = m
      · subst hkm
        rw [hvm, hvo' k hkn, hum']
      · rw [hvo k hkm, huo k hkn, hvo' k hkn, huo' k hkm]
  · rw [respond_eq, hvn]
  · rw [respond_eq, hvm]

/-- Settles O56: a named result is carried at its own width, and a literal is `bv_W` of itself. -/
theorem drivenOperandsAreNotFree : Obligations.DrivenOperandsAreNotFree := by
  intro names n free
  refine ⟨fun x r hx hw => ?_, resolve_dec names n free, resolve_hex names n free⟩
  rw [resolve_name hx]
  exact uint_carry_of_portBits_eq r free hw

/-- Settles O1: the widths are the list `Width.all`, and W follows R5's threshold. -/
theorem widthsAreTheClosedSet : Obligations.WidthsAreTheClosedSet :=
  ⟨Width.exists_bits_eq_iff, Width.ofBits_eq_some_iff, fun n => ⟨n.portBits_eq_ite, n.bits_add_two_le⟩⟩

/-- Settles O2: the table of R6, computed. -/
theorem ringConstants : Obligations.RingConstants := by
  unfold Obligations.RingConstants
  decide

/-- Settles O8: the transaction just issued shows its own OP, so evaluating it is `exec` of what that OP decodes to. -/
theorem stepRunsTheDecodedTransaction : Obligations.StepRunsTheDecodedTransaction :=
  fun _ _ _ _ hp hi => exists_exec_step hp hi

end Sys2Proof.Scope

/-! ## 10_state.md: RES is the function of the inputs, and an operation changes nothing else -/

/-! A settled instance, in terms of its ports alone. -/

namespace Sys2Proof.Machine.State

/-- Evaluating the inputs of an instance that holds a defined code gives its RES the result of the operation. -/
theorem evaluate_address {s : State} {n : Width} {i : Instr} (hi : decode (s.ports n).op = some i) :
    evaluate (s.address n) = .next ((s.address n).setPorts n
      { s.ports n with res := resultOf i n (s.ports n).s0 (s.ports n).s1 }) := by
  have h := evaluate_at (s.address_sel n) (by rwa [ports_address])
  rwa [ports_address] at h

/-- Instance `n` shows on RES what its operation gives for the inputs on its ports; of a reserved code nothing is asked
(10_state.md R16, R25). -/
theorem settledAt_iff (s : State) (n : Width) :
    s.SettledAt n ↔ ∀ i, decode (s.ports n).op = some i →
      (s.ports n).res = resultOf i n (s.ports n).s0 (s.ports n).s1 := by
  constructor
  · rintro (hnone | hsame) i hi
    · simp [hnone] at hi
    · have hstate := Host.Outcome.next.inj (hsame.symm.trans (evaluate_address hi))
      simpa using congrArg (fun t => (t.ports n).res) hstate
  · intro hres
    cases hi : decode (s.ports n).op with
    | none => exact .inl hi
    | some i =>
      refine .inr ((evaluate_address hi).trans (congrArg _ ?_))
      rw [← hres i hi, ← s.ports_address n n]
      exact setPorts_self _ n

/-- Whether an instance is settled depends on its own ports only: the instances share no wire (00_scope.md R7). -/
theorem settledAt_congr {s t : State} {n : Width} (h : t.ports n = s.ports n) : t.SettledAt n ↔ s.SettledAt n := by
  rw [settledAt_iff, settledAt_iff, h]

/-- The instance that has just run a transaction is settled, whatever it showed before. -/
theorem settledAt_of_ports_eq {t : State} {n : Width} {op : OpCode} {i : Instr} {a b : Word n.portBits}
    (hi : decode op = some i) (hports : t.ports n = ⟨op, a, b, resultOf i n a b⟩) : t.SettledAt n := by
  rw [settledAt_iff, hports]
  intro j hj
  obtain rfl : i = j := Option.some.inj (hi.symm.trans hj)
  rfl

theorem ports_reset (n : Width) : reset.ports n = Ports.quiet n.portBits := by cases n <;> rfl

end Sys2Proof.Machine.State

namespace Sys2Proof.Machine

/-- With no transaction left a step changes nothing (70_reset_and_hazards.md R115; log entry 11). -/
theorem step_of_program_nil {s : State} (hp : s.program = []) : step s = .next s := by
  simp only [step, hp]

theorem addResult_zero (n : Width) : addResult n 0 0 = 0 := by
  simp [addResult, sumOf, sint, unsignedResult, bv, zext]

/-- The ports at rest show ADD of the two zeros (log entry 2). -/
theorem State.settled_reset : State.reset.Settled := fun n =>
  State.settledAt_of_ports_eq (op := 0) (i := .add) (a := 0) (b := 0) rfl
    ((State.ports_reset n).trans (congrArg (Ports.mk 0 0 0) (addResult_zero n).symm))

end Sys2Proof.Machine

/-! The obligations of the state. -/

namespace Sys2Proof.PortState

open Sys2Proof Sys2Proof.Machine

/-- Settles O57: a step either changes nothing, or writes the ports of the addressed instance with the result of the
operation on them and leaves every other instance's ports, on which alone being settled depends. -/
theorem stepKeepsEveryInstanceSettled : Obligations.StepKeepsEveryInstanceSettled := by
  intro s t hs hstep n
  cases hp : s.program with
  | nil =>
    obtain rfl : s = t := Host.Outcome.next.inj ((step_of_program_nil hp).symm.trans hstep)
    exact hs n
  | cons x rest =>
    obtain ⟨i, hi, -, -, -, hother, hports, -⟩ := step_next hp hstep
    by_cases hn : n = x.inst
    · subst hn
      exact State.settledAt_of_ports_eq hi hports
    · exact (State.settledAt_congr (hother n hn)).mpr (hs n)

/-- Settles O17: the one effect of an operation is to present its result (`exec_eq`), which keeps the rest. -/
theorem operationsChangeOnlyRes : Obligations.OperationsChangeOnlyRes := fun i s =>
  ⟨_, exec_eq i s, s.present_sel _, s.present_program _, s.present_names _, s.present_draws _,
    s.present_op _, s.present_s0 _, s.present_s1 _, fun m hm => s.ports_present_ne m _ hm⟩

/-- Settles O53: the answer is `resultOf` of the operation, the instance and the operands, in which no state occurs. -/
theorem historyDoesNotMatter : Obligations.HistoryDoesNotMatter := fun s s' n i a b =>
  ⟨resultOf i n a b, respond_eq s n i a b, respond_eq s' n i a b⟩

/-- Settles O59: nothing is pending, no name is bound, and the ports at rest are settled. -/
theorem resetIsSettledAndEmpty : Obligations.ResetIsSettledAndEmpty :=
  ⟨rfl, rfl, State.settled_reset, List.nodup_nil, List.forall_mem_nil _⟩

end Sys2Proof.PortState

/-! ## 20_memory.md: driving the ports of an instance, and evaluating what stands on them -/

namespace Sys2Proof.Machine

/-- All an evaluation that answers can have done: the operation of the code on OP has presented its result. -/
theorem evaluate_next {s t : State} (h : evaluate s = .next t) :
    ∃ i, decode s.opcode = some i ∧ t = s.present (resultOf i s.sel s.s0 s.s1) := by
  cases hi : decode s.opcode with
  | none => simp [evaluate_reserved rfl hi] at h
  | some i => exact ⟨i, rfl, Host.Outcome.next.inj (h.symm.trans ((evaluate_eq_exec hi).trans (exec_eq i s)))⟩

/-- Evaluating changes nothing where the addressed instance is settled and holds a defined code. -/
theorem State.SettledAt.evaluate_eq {s : State} {n : Width} {i : Instr} (hs : s.SettledAt n) (hsel : s.sel = n)
    (hi : decode (s.ports n).op = some i) : evaluate s = .next s := by
  subst hsel
  rcases hs with hnone | hsame
  · simp [hnone] at hi
  · exact hsame

end Sys2Proof.Machine

/-! The obligations of the ports. -/

namespace Sys2Proof.PortAccess

open Sys2Proof Sys2Proof.Machine

/-- Settles O54: the state answered shows the result of inputs that are still present, so its instance is settled. -/
theorem evaluationIsIdempotent : Obligations.EvaluationIsIdempotent := by
  intro s t h
  obtain ⟨i, hi, rfl⟩ := evaluate_next h
  have hsettled := State.settledAt_of_ports_eq hi (s.ports_present_sel (resultOf i s.sel s.s0 s.s1))
  exact hsettled.evaluate_eq (s.present_sel _) (by rwa [s.present_op])

/-- Settles O9: the ports of the addressed instance are those of `ports_issue_same`, every other instance's are kept. -/
theorem issueDrivesTheAddressedInputs : Obligations.IssueDrivesTheAddressedInputs := by
  intro s t
  have hports := s.ports_issue_same t
  exact ⟨s.issue_sel t, by rw [hports], by rw [hports], by rw [hports], by rw [hports],
    fun m hm => s.ports_issue_ne m t hm, s.issue_program t, s.issue_names t⟩

end Sys2Proof.PortAccess

/-! ## 30_encoding.md: codes, bit strings, written lines, result formats, and the names a host keeps -/

/-! The bit string of a transaction and its three fields (30_encoding.md R38). -/

namespace Sys2Proof

section Listing

variable (n : Width) (op : OpCode) (s0 s1 : Word n.portBits)

@[simp] theorem listedOp_packTxn : listedOp n (packTxn n op s0 s1) = op := BitVec.extractLsb'_append_eq_left

@[simp] theorem listedS1_packTxn : listedS1 n (packTxn n op s0 s1) = s1 :=
  (BitVec.extractLsb'_append_eq_of_add_le (by omega)).trans BitVec.extractLsb'_append_eq_right

@[simp] theorem listedS0_packTxn : listedS0 n (packTxn n op s0 s1) = s0 :=
  (BitVec.extractLsb'_append_eq_of_add_le (by omega)).trans BitVec.extractLsb'_append_eq_left

/-- The three fields are the whole string. -/
theorem packTxn_listed (v : BitVec (txnBits n)) : packTxn n (listedOp n v) (listedS0 n v) (listedS1 n v) = v := by
  have hoperands : listedS0 n v ++ listedS1 n v = v.extractLsb' 0 (n.portBits + n.portBits) :=
    BitVec.extractLsb'_append_extractLsb'_eq_extractLsb' (Nat.zero_add _).symm
  rw [packTxn, hoperands]
  exact BitVec.extractLsb'_append_extractLsb'

theorem getLsbD_packTxn_s1 {k : Nat} (hk : k < n.portBits) :
    (packTxn n op s0 s1).getLsbD k = s1.getLsbD k := by
  rw [packTxn, BitVec.getLsbD_append, if_pos (by omega), BitVec.getLsbD_append, if_pos hk]

theorem getLsbD_packTxn_s0 {k : Nat} (hk : k < n.portBits) :
    (packTxn n op s0 s1).getLsbD (n.portBits + k) = s0.getLsbD k := by
  rw [packTxn, BitVec.getLsbD_append, if_pos (by omega), BitVec.getLsbD_append, if_neg (by omega),
    Nat.add_sub_cancel_left]

theorem getLsbD_packTxn_op (k : Nat) :
    (packTxn n op s0 s1).getLsbD (2 * n.portBits + k) = op.getLsbD k := by
  rw [packTxn, BitVec.getLsbD_append, if_neg (by omega), ← two_mul, Nat.add_sub_cancel_left]

theorem txnBits_eq_ite : txnBits n = if n.bits ≤ 24 then 67 else 131 := by cases n <;> decide

theorem decodeTxn_eq_none_iff (v : BitVec (txnBits n)) :
    decodeTxn n v = none ↔ listedOp n v = 6#3 ∨ listedOp n v = 7#3 :=
  Option.map_eq_none_iff.trans (Machine.decode_eq_none_iff _)

theorem decodeTxn_eq_some_iff (v : BitVec (txnBits n)) (i : Instr) :
    decodeTxn n v = some (i, s0, s1) ↔ decode (listedOp n v) = some i ∧ listedS0 n v = s0 ∧ listedS1 n v = s1 := by
  simp [decodeTxn]

end Listing

end Sys2Proof

/-! Mnemonics (30_encoding.md R51). -/

namespace Sys2Proof.Machine

/-- Any spelling of a mnemonic is read, whatever the case of its letters (30_encoding.md R51). -/
theorem readMnemonic_of_toUpper {cs : List Char} {i : Instr} (h : cs.map Char.toUpper = mnemonic i) :
    readMnemonic cs = some i := by
  rw [readMnemonic, h]
  cases i <;> decide

theorem mnemonic_toUpper (i : Instr) : (mnemonic i).map Char.toUpper = mnemonic i := by cases i <;> decide

theorem mnemonic_toLower_toUpper (i : Instr) : ((mnemonic i).map Char.toLower).map Char.toUpper = mnemonic i := by
  cases i <;> decide

end Sys2Proof.Machine

/-! The obligations of the codes, the bit strings and the mnemonics. -/

namespace Sys2Proof.Encoding

open Sys2Proof Sys2Proof.Machine

/-- Settles O5: each field of the packed string is read back, and the code decodes to its operation. -/
theorem decodeOfEncodeIsTheTransaction : Obligations.DecodeOfEncodeIsTheTransaction := by
  intro n i s0 s1
  rw [decodeTxn_eq_some_iff, encodeTxn, listedOp_packTxn]
  exact ⟨decode_encode i, listedS0_packTxn n _ s0 s1, listedS1_packTxn n _ s0 s1⟩

/-- Settles O4: the place of each bit in the two concatenations. -/
theorem transactionStringLayout : Obligations.TransactionStringLayout := fun n op s0 s1 =>
  ⟨txnBits_eq_ite n, fun _ hk => getLsbD_packTxn_s1 n op s0 s1 hk, fun _ hk => getLsbD_packTxn_s0 n op s0 s1 hk,
    fun k _ => getLsbD_packTxn_op n op s0 s1 k⟩

/-- Settles O6: a code that decodes is the code of its operation, and the fields of a string pack to the string. -/
theorem everyStringIsReservedOrAnEncoding : Obligations.EveryStringIsReservedOrAnEncoding := by
  intro n v
  refine ⟨decodeTxn_eq_none_iff n v, fun i s0 s1 h => ?_⟩
  obtain ⟨hop, rfl, rfl⟩ := (decodeTxn_eq_some_iff n s0 s1 v i).mp h
  rw [encodeTxn, encode_of_decode hop]
  exact packTxn_listed n v

/-- Settles O3: the table of R39, read off the opcode map. -/
theorem opCodesSelectTheOperations : Obligations.OpCodesSelectTheOperations :=
  ⟨rfl, rfl, rfl, rfl, rfl, rfl, rfl, rfl⟩

/-- Settles O7: both spellings have the canonical one as their upper case. -/
theorem mnemonicsNameTheOperations : Obligations.MnemonicsNameTheOperations := fun i =>
  ⟨readMnemonic_of_toUpper (mnemonic_toUpper i), readMnemonic_of_toUpper (mnemonic_toLower_toUpper i)⟩

end Sys2Proof.Encoding

/-! Written lines and the operands they drive (30_encoding.md R42, R51, R53). -/

namespace Sys2Proof

/-- An operation reads S0 exactly when it has a first operand. -/
theorem Instr.readsS0_iff (i : Instr) : i.readsS0 = true ↔ 0 < i.arity := by cases i <;> decide

/-- An operation reads S1 exactly when it has a second operand. -/
theorem Instr.readsS1_iff (i : Instr) : i.readsS1 = true ↔ 1 < i.arity := by cases i <;> decide

namespace Line

variable {env : NameWidths} {l : Line}

theorem wf_iff : l.wf env = true ↔
    l.operands.length = l.instr.arity ∧ ∀ o ∈ l.operands, o.wf env l.inst = true := by
  simp [wf]

theorem exists_operand_of_wf (h : l.wf env = true) {k : Nat} (hk : k < l.instr.arity) :
    ∃ o, l.operands[k]? = some o ∧ o.wf env l.inst = true := by
  obtain ⟨hlen, hall⟩ := wf_iff.mp h
  exact ⟨_, List.getElem?_eq_getElem (hlen ▸ hk), hall _ (List.getElem_mem _)⟩

theorem exists_s0_of_wf (h : l.wf env = true) (hr : l.instr.readsS0 = true) :
    ∃ o, l.assemble.s0 = some o ∧ o.wf env l.inst = true := by
  simpa only [assemble, if_pos hr] using exists_operand_of_wf h (l.instr.readsS0_iff.mp hr)

theorem exists_s1_of_wf (h : l.wf env = true) (hr : l.instr.readsS1 = true) :
    ∃ o, l.assemble.s1 = some o ∧ o.wf env l.inst = true := by
  simpa only [assemble, if_pos hr] using exists_operand_of_wf h (l.instr.readsS1_iff.mp hr)

theorem isSome_s0_of_wf (h : l.wf env = true) : l.assemble.s0.isSome = l.instr.readsS0 := by
  cases hr : l.instr.readsS0 with
  | false => simp [assemble, hr]
  | true =>
    obtain ⟨o, ho, -⟩ := exists_s0_of_wf h hr
    rw [ho, Option.isSome_some]

theorem isSome_s1_of_wf (h : l.wf env = true) : l.assemble.s1.isSome = l.instr.readsS1 := by
  cases hr : l.instr.readsS1 with
  | false => simp [assemble, hr]
  | true =>
    obtain ⟨o, ho, -⟩ := exists_s1_of_wf h hr
    rw [ho, Option.isSome_some]

theorem decode_assemble_op (l : Line) : decode l.assemble.op = some l.instr := Machine.decode_encode l.instr

end Line

/-- A transaction that drives exactly the ports its operation reads meets R114 (1) and (2). -/
theorem Txn.owed_of_isSome_eq {t : Txn} {i : Instr} (hi : decode t.op = some i)
    (h0 : t.s0.isSome = i.readsS0) (h1 : t.s1.isSome = i.readsS1) : t.owed = true := by
  simp [owed, hi, h0, h1]

end Sys2Proof

/-! The host's table of names, before and after a step (30_encoding.md R53). -/

namespace Sys2Proof.Machine

theorem lookup_bindName_self (names : List (Name × Result)) (x : Name) (r : Result) :
    (bindName names x r).lookup x = some r := List.lookup_cons_self

theorem lookup_bindName_of_ne (names : List (Name × Result)) {x y : Name} (r : Result) (h : y ≠ x) :
    (bindName names x r).lookup y = names.lookup y := by
  have hfilter : (names.filter (fun e => e.1 ≠ x)).lookup y = names.lookup y := by
    induction names with
    | nil => rfl
    | cons e es ih =>
      by_cases hex : e.1 = x
      · have hye : (y == e.1) = false := beq_false_of_ne (hex ▸ h)
        rw [List.filter_cons_of_neg (by simpa using hex), ih, List.lookup_cons, hye]
      · rw [List.filter_cons_of_pos (by simpa using hex), List.lookup_cons, List.lookup_cons, ih]
  rw [bindName, List.lookup_cons, beq_false_of_ne h]
  exact hfilter

theorem nodup_bindName {names : List (Name × Result)} (h : (names.map Prod.fst).Nodup) (x : Name) (r : Result) :
    ((bindName names x r).map Prod.fst).Nodup := by
  rw [bindName, List.map_cons, List.nodup_cons]
  exact ⟨by simp, h.sublist (List.filter_sublist.map Prod.fst)⟩

section StepNames

variable {s u : State} {t : Txn} {rest : List Txn} (hp : s.program = t :: rest) (hstep : step s = .next u)
include hp hstep

theorem step_names_of_unnamed (hx : t.name = none) : u.names = s.names := by
  obtain ⟨_, _, _, _, _, _, _, hnames⟩ := step_next hp hstep
  simpa only [hx] using hnames

theorem step_names_of_named {x : Name} (hx : t.name = some x) :
    u.names = bindName s.names x ⟨t.inst, (u.ports t.inst).res⟩ := by
  obtain ⟨_, _, _, _, _, _, _, hnames⟩ := step_next hp hstep
  simpa only [hx] using hnames

end StepNames

/-! What a checker of names knows of the host's table. -/

/-- Every name that `env` has checked is bound to a result of the instance it says. -/
def Covers (env : NameWidths) (names : List (Name × Result)) : Prop :=
  ∀ x m, env.lookup x = some m → ∃ r, names.lookup x = some r ∧ r.inst = m

theorem covers_nil (names : List (Name × Result)) : Covers [] names := fun _ _ h => by simp at h

/-- Binding a name keeps the table covered, with that name checked. -/
theorem Covers.bind {env : NameWidths} {names : List (Name × Result)} (h : Covers env names) (x : Name) (r : Result) :
    Covers ((x, r.inst) :: env) (bindName names x r) := by
  intro y m hy
  by_cases hyx : y = x
  · subst hyx
    rw [List.lookup_cons_self] at hy
    exact ⟨r, lookup_bindName_self names y r, Option.some.inj hy⟩
  · rw [List.lookup_cons, beq_false_of_ne hyx] at hy
    rw [lookup_bindName_of_ne names r hyx]
    exact h y m hy

/-- The step of a written line leaves its table covered by the names after the line. -/
theorem Covers.step {env : NameWidths} {s u : State} {l : Line} {rest : List Txn} (h : Covers env s.names)
    (hp : s.program = l.assemble :: rest) (hstep : step s = .next u) : Covers (l.define env) u.names := by
  cases hx : l.name with
  | none =>
    rw [step_names_of_unnamed hp hstep hx]
    simpa only [Line.define, hx] using h
  | some x =>
    rw [step_names_of_named hp hstep hx]
    simp only [Line.define, hx]
    exact h.bind x ⟨l.inst, (u.ports l.inst).res⟩

/-- A result carried to a port of its own width or a narrower one takes no undriven wire. -/
theorem carry_free_irrel (r : Result) {n : Width} (h : n.portBits ≤ r.inst.portBits) (free free' : Word n.portBits) :
    carry r n free = carry r n free' := by
  rw [carry, carry, if_pos h, if_pos h]

/-- A well-formed operand drives its port whole: the value the port had undriven is not seen. -/
theorem resolve_free_irrel_of_wf {env : NameWidths} {names : List (Name × Result)} {n : Width} {o : Operand}
    (hcov : Covers env names) (ho : o.wf env n = true) (free free' : Word n.portBits) :
    resolve names n free (some o) = resolve names n free' (some o) := by
  cases o with
  | dec i => rfl
  | hex v => rfl
  | name x =>
    cases hx : env.lookup x with
    | none => simp [Operand.wf, hx] at ho
    | some m =>
      have hm : m.portBits = n.portBits := by simpa [Operand.wf, hx] using ho
      obtain ⟨r, hr, rfl⟩ := hcov x m hx
      rw [resolve_name hr, resolve_name hr]
      exact carry_free_irrel r hm.ge free free'

/-- Two states with the same program and the same table run a well-formed line to the same table. -/
theorem exists_steps_names_eq {env : NameWidths} {s s' : State} {l : Line} {rest : List Txn} (hwf : l.wf env = true)
    (hcov : Covers env s.names) (hp : s.program = l.assemble :: rest) (hp' : s'.program = l.assemble :: rest)
    (hn : s'.names = s.names) :
    ∃ u u', step s = .next u ∧ step s' = .next u' ∧ u.program = rest ∧ u'.program = rest ∧ u'.names = u.names := by
  have h0 : l.instr.readsS0 = true →
      ((s'.issue l.assemble).ports l.assemble.inst).s0 = ((s.issue l.assemble).ports l.assemble.inst).s0 := by
    intro hr
    obtain ⟨o, ho, howf⟩ := Line.exists_s0_of_wf hwf hr
    rw [State.ports_issue_same, State.ports_issue_same, hn, ho]
    exact resolve_free_irrel_of_wf hcov howf _ _
  have h1 : l.instr.readsS1 = true →
      ((s'.issue l.assemble).ports l.assemble.inst).s1 = ((s.issue l.assemble).ports l.assemble.inst).s1 := by
    intro hr
    obtain ⟨o, ho, howf⟩ := Line.exists_s1_of_wf hwf hr
    rw [State.ports_issue_same, State.ports_issue_same, hn, ho]
    exact resolve_free_irrel_of_wf hcov howf _ _
  obtain ⟨u, u', hu, hu', hres⟩ := Scope.resultDependsOnlyOnTheTransaction s s' l.assemble rest rest l.instr hp hp'
    l.decode_assemble_op h0 h1
  obtain ⟨_, _, _, hrest, _⟩ := step_next hp hu
  obtain ⟨_, _, _, hrest', _⟩ := step_next hp' hu'
  refine ⟨u, u', hu, hu', hrest, hrest', ?_⟩
  cases hx : l.name with
  | none => rw [step_names_of_unnamed hp hu hx, step_names_of_unnamed hp' hu' hx, hn]
  | some x => rw [step_names_of_named hp hu hx, step_names_of_named hp' hu' hx, hn, hres]

theorem run_succ {s u : State} (h : step s = .next u) (k : Nat) : core.run (k + 1) s = core.run k u := by
  have hcore : core.step s = .next u := h
  simp only [Host.Core.run, hcore]

/-- Two states with the same table run a well-formed program, whose names so far the table covers, to the same table. -/
theorem exists_runs_names_eq {env : NameWidths} {ls : List Line} (hwf : programWf env ls = true) {s s' : State}
    (hcov : Covers env s.names) (hp : s.program = ls.map Line.assemble) (hp' : s'.program = ls.map Line.assemble)
    (hn : s'.names = s.names) :
    ∃ t t', core.run ls.length s = .next t ∧ core.run ls.length s' = .next t' ∧ t'.names = t.names := by
  induction ls generalizing env s s' with
  | nil => exact ⟨s, s', rfl, rfl, hn⟩
  | cons l ls ih =>
    obtain ⟨hline, hrest⟩ := (Bool.and_eq_true _ _).mp hwf
    obtain ⟨u, u', hu, hu', hup, hup', hun⟩ := exists_steps_names_eq hline hcov hp hp' hn
    rw [List.length_cons, run_succ hu, run_succ hu']
    exact ih hrest (hcov.step hp hu) hup hup' hun

end Sys2Proof.Machine

/-! The result formats: what an operation reads of its operands, and how its RES reads (30_encoding.md R42 to R45). -/

namespace Sys2Proof.Width

theorem bits_lt_ring (n : Width) : n.bits < n.ring := Nat.lt_two_pow_self

end Sys2Proof.Width

namespace Sys2Proof.Machine

/-- A sign-extended word is the sign extension of its own low bits. -/
theorem sext_extractLsb'_sext {w k : Nat} (h : w ≤ k) (v : Word w) :
    sext k ((sext k v).extractLsb' 0 w) = sext k v := by
  have hlow : (v.signExtend k).extractLsb' 0 w = v := by
    ext j hj
    simp [BitVec.getElem_signExtend, hj, lt_of_lt_of_le hj h]
  rw [sext, sext, hlow]

theorem sext_extractLsb'_signedResult (n : Width) (r : Int) :
    sext n.portBits ((signedResult n r).extractLsb' 0 (n.bits + 1)) = signedResult n r :=
  sext_extractLsb'_sext (by have := n.bits_add_two_le; omega) _

/-- The modular sum takes its operands reduced (40_add.md R54, second form). -/
theorem addResult_eq_reduced (n : Width) (a b : Word n.portBits) :
    addResult n a b = unsignedResult n ((reduced n a + reduced n b) % (n.ring : Int)) := by
  rw [addResult, sumOf, reduced_eq_emod, reduced_eq_emod, ← Int.add_emod]

/-- The operations that reduce both operands see their low N bits only (30_encoding.md R42). -/
theorem resultOf_congr_red {n : Width} {a b a' b' : Word n.portBits} (ha : red n a = red n a') (hb : red n b = red n b')
    {i : Instr} (hi : i = .add ∨ i = .dist ∨ i = .distu ∨ i = .cmp) : resultOf i n a b = resultOf i n a' b' := by
  have ha' := (red_eq_iff_reduced_eq n a a').mp ha
  have hb' := (red_eq_iff_reduced_eq n b b').mp hb
  have hdist : distOf n a b = distOf n a' b' := by rw [distOf, distOf, ha', hb']
  obtain rfl | rfl | rfl | rfl := hi
  · rw [resultOf, resultOf, addResult_eq_reduced, addResult_eq_reduced, ha', hb']
  · rw [resultOf, resultOf, distResult, distResult, hdist]
  · rw [resultOf, resultOf, distuResult, distuResult, hdist]
  · rw [resultOf, resultOf, cmpResult, cmpResult, hdist]

theorem uint_addResult_le_max (n : Width) (a b : Word n.portBits) : uint (addResult n a b) ≤ n.max := by
  have hring := n.ring_pos
  have hlt := Int.emod_lt_of_pos (sint a + sint b) (show (0 : Int) < n.ring by omega)
  rw [uint_addResult, n.max_eq]
  omega

theorem uint_distuResult_le_half (n : Width) (a b : Word n.portBits) : uint (distuResult n a b) ≤ n.half := by
  obtain ⟨hlo, hhi⟩ := distOf_bounds n a b
  rw [uint_distuResult]
  omega

end Sys2Proof.Machine

/-! The obligations of the step, of written programs and of the result formats. -/

namespace Sys2Proof.Encoding

open Sys2Proof Sys2Proof.Machine

/-- Settles O12: the two zero literals are driven as zero, and RES is the answer `respond` gives to them. -/
theorem fetchedWordRunsNext : Obligations.FetchedWordRunsNext := by
  intro s nbits w i hi
  have hp := s.withFetchWord_program nbits w
  obtain ⟨u, hstep, -⟩ := exists_step_res hp hi
  obtain ⟨j, hj, -, hprogram, -, -, hports, -⟩ := step_next hp hstep
  obtain rfl : i = j := Option.some.inj (hi.symm.trans hj)
  have hzero : u.ports s.sel = ⟨tableOp nbits w, 0, 0, resultOf i s.sel 0 0⟩ := hports
  have hnames := step_names_of_unnamed hp hstep rfl
  refine ⟨u, hstep, hprogram, hnames, ?_⟩
  rw [hzero, respond_eq]
  exact ⟨(encode_of_decode hi).symm, rfl, rfl, rfl⟩

/-- Settles O14: every pending transaction is an assembled line, whose code is that of its operation. -/
theorem writtenProgramsAreSafe : Obligations.WrittenProgramsAreSafe := by
  intro s p t ht
  obtain ⟨l, -, rfl⟩ := List.mem_map.mp ht
  simp [l.decode_assemble_op]

/-- Settles O15: a well-formed line has as many operands as its operation reads ports. -/
theorem wellFormedLinesDriveWhatIsRead : Obligations.WellFormedLinesDriveWhatIsRead := fun _ l h =>
  ⟨Txn.owed_of_isSome_eq l.decode_assemble_op (Line.isSome_s0_of_wf h) (Line.isSome_s1_of_wf h),
    Line.isSome_s0_of_wf h, Line.isSome_s1_of_wf h⟩

/-- Settles O16: the two loaded states agree in program and names, which is all a well-formed program sees. -/
theorem wellFormedProgramsSeeNoFreeValue : Obligations.WellFormedProgramsSeeNoFreeValue := fun s _ _ hwf =>
  exists_runs_names_eq hwf (covers_nil s.names) rfl rfl rfl

/-- Settles O25: each result is a serial value, below R, so its top bit is clear. -/
theorem unsignedResultsReadAlike : Obligations.UnsignedResultsReadAlike := by
  intro s n a b
  have hmax : (n.max : Int) < n.ring := by have := n.ring_pos; rw [n.max_eq]; omega
  have hbits : (n.bits : Int) < n.ring := by exact_mod_cast n.bits_lt_ring
  have hhalf : (n.half : Int) < n.ring := by have := n.ring_eq_two_half; have := n.half_ge; omega
  have hadd := uint_addResult_le_max n a b
  have hN := uint_bitsResult n
  have hdistu := uint_distuResult_le_half n a b
  exact ⟨⟨_, respond_eq s n .add a b, sint_eq_uint_of_lt_ring n _ (hadd.trans_lt hmax), hadd⟩,
    ⟨_, respond_eq s n .bits a b, sint_eq_uint_of_lt_ring n _ (hN.trans_lt hbits), hN⟩,
    ⟨_, respond_eq s n .distu a b, sint_eq_uint_of_lt_ring n _ (hdistu.trans_lt hhalf), hdistu⟩⟩

/-- Settles O26: both results are of the signed format, and read as the distance or its negation. -/
theorem signedResultsAreSignExtended : Obligations.SignedResultsAreSignExtended := by
  intro s n i a b hi
  obtain ⟨hlo, hhi⟩ := distOf_bounds n a b
  refine ⟨_, respond_eq s n i a b, ?_⟩
  obtain rfl | rfl := hi
  · have hread : sint (resultOf .dist n a b) = distOf n a b := sint_distResult n a b
    exact ⟨(sext_extractLsb'_signedResult n _).symm, by omega, by omega⟩
  · have hread : sint (resultOf .cmp n a b) = -distOf n a b := sint_cmpResult n a b
    exact ⟨(sext_extractLsb'_signedResult n _).symm, by omega, by omega⟩

/-- Settles O27: RES is `resultOf`, which sees reduced operands, none, or S0 alone. -/
theorem onlyTheReadBitsMatter : Obligations.OnlyTheReadBitsMatter := by
  intro s n a b a' b'
  simp only [respond_eq, Option.some.injEq]
  exact ⟨fun ha hb i hi => resultOf_congr_red ha hb hi, rfl, rfl⟩

/-- Settles O55: the step binds the name it is given, and a binding is found under its own name only. -/
theorem namedResultIsKept : Obligations.NamedResultIsKept := by
  intro s u t rest hp hstep
  obtain ⟨_, _, hsel, hrest, _⟩ := step_next hp hstep
  refine ⟨hsel, hrest, step_names_of_unnamed hp hstep, fun x hx => ?_⟩
  rw [step_names_of_named hp hstep hx]
  exact ⟨lookup_bindName_self _ _ _, fun y hy => lookup_bindName_of_ne _ _ hy⟩

/-- Settles O58: a step keeps the table or binds one name, whose earlier binding is dropped. -/
theorem stepKeepsNamesDistinct : Obligations.StepKeepsNamesDistinct := by
  intro s u hs hstep
  cases hp : s.program with
  | nil =>
    obtain rfl : s = u := Host.Outcome.next.inj ((step_of_program_nil hp).symm.trans hstep)
    exact hs
  | cons t rest =>
    rw [State.NamesDistinct]
    cases hx : t.name with
    | none => rwa [step_names_of_unnamed hp hstep hx]
    | some x =>
      rw [step_names_of_named hp hstep hx]
      exact nodup_bindName hs x _

end Sys2Proof.Encoding

/-! ## 40_add.md: the modular sum in its three forms, and what reducing the operands entails -/

namespace Sys2Proof.Width

theorem ring_cast (n : Width) : (n.ring : Int) = 2 ^ n.bits := Nat.cast_pow 2 n.bits

end Sys2Proof.Width

/-! Reduction to N bits of a sum, of a negation and of a word reduced before (00_scope.md R10). -/

namespace Sys2Proof.Machine

theorem red_eq_setWidth (n : Width) (v : Word n.portBits) : red n v = v.setWidth n.bits :=
  (BitVec.setWidth_eq_extractLsb' (by have := n.bits_add_two_le; omega)).symm

/-- The low N bits of a W-bit sum are the N-bit sum of the low bits: the carries out of bit N-1 are dropped. -/
theorem red_add (n : Width) (a b : Word n.portBits) : red n (a + b) = red n a + red n b := by
  simp only [red_eq_setWidth]
  exact BitVec.setWidth_add a b (by have := n.bits_add_two_le; omega)

theorem reduced_add (n : Width) (a b : Word n.portBits) :
    reduced n (a + b) = (reduced n a + reduced n b) % (n.ring : Int) := by
  simp only [reduced, red_add, uint, BitVec.toNat_add, Width.ring]
  push_cast
  rfl

/-- An N-bit word that is zero-extended to a port is its own reduction. -/
theorem red_zext (n : Width) (v : Word n.bits) : red n (zext n.portBits v) = v := by
  rw [red_eq_setWidth, zext, BitVec.setWidth_setWidth_of_le v (by have := n.bits_add_two_le; omega),
    BitVec.setWidth_eq]

theorem neg_eq_bv {w : Nat} (v : Word w) : -v = bv w (-sint v) := by
  rw [bv, BitVec.ofInt_neg, sint, BitVec.ofInt_toInt]

/-! RES of ADD. -/

/-- The modular sum on the reduced operands (40_add.md R54, second form). -/
theorem uint_addResult_eq_reduced (n : Width) (a b : Word n.portBits) :
    uint (addResult n a b) = (reduced n a + reduced n b) % (n.ring : Int) := by
  rw [uint_addResult, reduced_eq_emod, reduced_eq_emod, ← Int.add_emod]

/-- The modular sum as a binary add with the carry dropped (40_add.md R54, third form). -/
theorem uint_addResult_eq_reduced_add (n : Width) (a b : Word n.portBits) :
    uint (addResult n a b) = reduced n (a + b) := by
  rw [uint_addResult_eq_reduced, reduced_add]

/-- The unsigned result format is zero from bit N up (30_encoding.md R43). -/
theorem getLsbD_unsignedResult_of_le (n : Width) (r : Int) {k : Nat} (hk : n.bits ≤ k) :
    (unsignedResult n r).getLsbD k = false := by
  rw [unsignedResult, zext, BitVec.getLsbD_setWidth, BitVec.getLsbD_of_ge _ k hk, Bool.and_false]

theorem uint_addResult_nonneg (n : Width) (a b : Word n.portBits) : 0 ≤ uint (addResult n a b) :=
  Int.natCast_nonneg _

theorem uint_addResult_lt_ring (n : Width) (a b : Word n.portBits) : uint (addResult n a b) < n.ring := by
  rw [uint_addResult_eq_reduced_add]
  exact reduced_lt n _

/-- The modular sum is a serial value, so reading it signed changes nothing (30_encoding.md R43). -/
theorem sint_addResult (n : Width) (a b : Word n.portBits) : sint (addResult n a b) = uint (addResult n a b) :=
  sint_eq_uint_of_lt_ring n _ (uint_addResult_lt_ring n a b)

/-! The answer of one transaction, and of ADD in particular. -/

theorem answers_iff (s : State) (n : Width) (i : Instr) (a b : Word n.portBits) (r : Int) :
    Answers s n i a b r ↔ resultValue i (resultOf i n a b) = r := by
  simp [Answers, respond_eq]

/-- ADD of an integer driven as its W-bit pattern adds that integer, negative or not (40_add.md R55). -/
theorem answers_add_bv (s : State) (n : Width) (a : Word n.portBits) (i : Int) :
    Answers s n .add a (bv n.portBits i) ((sint a + i) % (n.ring : Int)) := by
  refine (answers_iff ..).mpr ?_
  calc uint (addResult n a (bv n.portBits i))
      = (reduced n a + reduced n (bv n.portBits i)) % (n.ring : Int) := uint_addResult_eq_reduced ..
    _ = (sint a % (n.ring : Int) + i % (n.ring : Int)) % (n.ring : Int) := by rw [reduced_eq_emod, reduced_bv]
    _ = (sint a + i) % (n.ring : Int) := (Int.add_emod ..).symm

/-- ADD of a negated operand subtracts (40_add.md R55). -/
theorem answers_add_neg (s : State) (n : Width) (a b : Word n.portBits) :
    Answers s n .add a (-b) ((sint a - sint b) % (n.ring : Int)) := by
  rw [neg_eq_bv]
  exact answers_add_bv s n a (-sint b)

/-- ADD of an integer and zero is the residue of the integer (40_add.md R54, R55). -/
theorem answers_add_zero (s : State) (n : Width) (i : Int) :
    Answers s n .add (bv n.portBits i) 0 (i % (n.ring : Int)) := by
  have hzero : bv n.portBits 0 = 0 := by simp [bv]
  have h := answers_add_bv s n (bv n.portBits i) 0
  rwa [add_zero, ← reduced_eq_emod, reduced_bv, hzero] at h

/-- INRANGE accepts every result of ADD, whatever stands on the port it ignores (40_add.md R55). -/
theorem answers_inrange_addResult (s : State) (n : Width) (a b c : Word n.portBits) :
    Answers s n .inrange (addResult n a b) c 1 := by
  refine (answers_iff ..).mpr ((uint_inrangeResult n (addResult n a b)).trans (if_pos ?_))
  rw [sint_addResult]
  exact ⟨uint_addResult_nonneg n a b, uint_addResult_lt_ring n a b⟩

end Sys2Proof.Machine

/-! The obligations of ADD. -/

namespace Sys2Proof.Add

open Sys2Proof Sys2Proof.Machine

/-- Settles O18: RES is `addResult`, of which each form of the rule is a lemma. -/
theorem addPresentsTheModularSum : Obligations.AddPresentsTheModularSum := by
  intro s
  refine ⟨_, exec_eq .add s, ?_⟩
  rw [s.present_res, ← s.sel.ring_cast]
  exact ⟨uint_addResult .., uint_addResult_eq_reduced .., uint_addResult_eq_reduced_add ..,
    fun _ hk => getLsbD_unsignedResult_of_le s.sel _ hk⟩

/-- Settles O28: ADD sees residues modulo R, of which those of R and R + 5 are 0 and 5, and its result is one. -/
theorem addReducesItsOperands : Obligations.AddReducesItsOperands := by
  intro s n a b
  have hring : (128 : Int) ≤ n.ring := by have := n.ring_eq_two_half; have := n.half_ge; omega
  have hR5 : ((n.ring : Int) + 5) % n.ring = 5 := by
    rw [Int.add_emod_left, Int.emod_eq_of_lt (by omega) (by omega)]
  have hreduce : resultOf .add n a b = resultOf .add n (zext n.portBits (red n a)) (zext n.portBits (red n b)) :=
    resultOf_congr_red (red_zext n (red n a)).symm (red_zext n (red n b)).symm (.inl rfl)
  refine ⟨answers_add_bv s n a (-1), answers_add_neg s n a b, ?_, ?_, ?_, ?_⟩
  · simpa only [Int.emod_self] using answers_add_zero s n n.ring
  · simpa only [hR5] using answers_add_zero s n (n.ring + 5)
  · rw [respond_eq, respond_eq, hreduce]
  · exact ⟨_, respond_eq s n .add a b, answers_inrange_addResult s n a b b⟩

end Sys2Proof.Add

/-! ## 41_distance.md: the forward delta, the tie, the distance and its other forms -/

/-! Arithmetic on N-bit words (00_scope.md R9). -/

namespace Sys2Proof.Machine

theorem uint_sub {w : Nat} (x y : Word w) : uint (x - y) = (uint x - uint y) % 2 ^ w := by
  have hle : y.toNat ≤ 2 ^ w := y.isLt.le
  simp only [uint, BitVec.toNat_sub]
  push_cast [Nat.cast_sub hle]
  rw [sub_add_eq_add_sub, add_sub_assoc, Int.add_emod_left]

/-- Adding the top bit inverts it: nothing below it carries, and its own carry is dropped. -/
theorem add_twoPow_last_eq_xor {w : Nat} (x : Word w) :
    x + BitVec.twoPow w (w - 1) = x ^^^ BitVec.twoPow w (w - 1) := by
  ext i hi
  have hlow : 2 ^ (w - 1) % 2 ^ i = 0 := Nat.mod_eq_zero_of_dvd (Nat.pow_dvd_pow 2 (by omega))
  have hcarry : BitVec.carry i x (BitVec.twoPow w (w - 1)) false = false := by
    simp [BitVec.carry, BitVec.toNat_twoPow_of_lt (show w - 1 < w by omega), hlow, Nat.mod_lt]
  rw [BitVec.getElem_add hi, hcarry, Bool.xor_false, BitVec.getElem_xor]

end Sys2Proof.Machine

namespace Sys2Proof.Width

theorem toNat_twoPow_last (n : Width) : (BitVec.twoPow n.bits (n.bits - 1)).toNat = n.half :=
  BitVec.toNat_twoPow_of_lt (by have := n.bits_ge; omega)

end Sys2Proof.Width

/-! The forward delta (41_distance.md R57) and the increments it counts. -/

namespace Sys2Proof.Machine

theorem delta_nonneg (n : Width) (a b : Int) : 0 ≤ delta n a b :=
  Int.emod_nonneg _ (by have := n.ring_pos; omega)

theorem delta_lt_ring (n : Width) (a b : Int) : delta n a b < n.ring :=
  Int.emod_lt_of_pos _ (by have := n.ring_pos; omega)

theorem delta_self (n : Width) (a : Int) : delta n a a = 0 := by simp [delta]

/-- The forward delta of two operands is the difference of their reductions, or that plus R. -/
theorem delta_reduced_cases (n : Width) (a b : Word n.portBits) :
    (reduced n a ≤ reduced n b ∧ delta n (reduced n a) (reduced n b) = reduced n b - reduced n a) ∨
    (reduced n b < reduced n a ∧ delta n (reduced n a) (reduced n b) = reduced n b - reduced n a + n.ring) :=
  delta_cases n (reduced_nonneg n a) (reduced_lt n a) (reduced_nonneg n b) (reduced_lt n b)

/-- Two different words are the whole ring apart, there and back again. -/
theorem delta_add_delta_swap {n : Width} {a b : Word n.portBits} (h : red n a ≠ red n b) :
    delta n (reduced n a) (reduced n b) + delta n (reduced n b) (reduced n a) = n.ring := by
  have hne : reduced n a ≠ reduced n b := fun he => h ((red_eq_iff_reduced_eq n a b).mpr he)
  have hab := delta_reduced_cases n a b
  have hba := delta_reduced_cases n b a
  omega

/-- The forward delta is the N-bit subtraction with the borrow dropped. -/
theorem uint_red_sub_red (n : Width) (a b : Word n.portBits) :
    uint (red n b - red n a) = delta n (reduced n a) (reduced n b) := by
  rw [uint_sub, ← n.ring_cast]
  rfl

/-- Going `k` forward from one reduced operand meets another exactly when `k` is their forward delta modulo R. -/
theorem reduced_eq_add_emod_iff (n : Width) (a b : Word n.portBits) (k : Int) :
    reduced n b = (reduced n a + k) % (n.ring : Int) ↔ delta n (reduced n a) (reduced n b) = k % (n.ring : Int) := by
  have hb : reduced n b % (n.ring : Int) = reduced n b := Int.emod_eq_of_lt (reduced_nonneg n b) (reduced_lt n b)
  rw [delta, ← Int.emod_add_cancel_right (reduced n a), sub_add_cancel, hb, add_comm k]

theorem reduced_addResult (n : Width) (a b : Word n.portBits) :
    reduced n (addResult n a b) = (reduced n a + reduced n b) % (n.ring : Int) := by
  rw [reduced_eq_emod n (addResult n a b), sint_addResult, uint_addResult_eq_reduced, Int.emod_emod]

/-- Increments always complete, and `k` of them go `k` forward around the ring (41_distance.md R66). -/
theorem exists_advance (s : State) (n : Width) (a : Word n.portBits) (k : Nat) :
    ∃ v, advance s n a k = some v ∧ reduced n v = (reduced n a + k) % (n.ring : Int) := by
  induction k with
  | zero =>
    refine ⟨a, rfl, ?_⟩
    rw [Nat.cast_zero, add_zero, Int.emod_eq_of_lt (reduced_nonneg n a) (reduced_lt n a)]
  | succ k ih =>
    obtain ⟨x, hx, hred⟩ := ih
    refine ⟨addResult n x (bv n.portBits 1), by rw [advance, hx]; exact respond_eq s n .add x _, ?_⟩
    rw [reduced_addResult, hred, reduced_bv, ← Int.add_emod, Nat.cast_succ, add_assoc]

/-- As many increments as the forward delta lead from one operand to the other. -/
theorem exists_advance_delta (s : State) (n : Width) (a b : Word n.portBits) :
    ∃ v, advance s n a (delta n (reduced n a) (reduced n b)).toNat = some v ∧ red n v = red n b := by
  obtain ⟨v, hv, hred⟩ := exists_advance s n a (delta n (reduced n a) (reduced n b)).toNat
  refine ⟨v, hv, (red_eq_iff_reduced_eq n v b).mpr (hred.trans ?_)⟩
  rw [Int.toNat_of_nonneg (delta_nonneg ..), eq_comm, reduced_eq_add_emod_iff, delta, Int.emod_emod]

/-- No fewer increments than the forward delta lead from one operand to the other. -/
theorem delta_le_of_advance {s : State} {n : Width} {a b v : Word n.portBits} {k : Nat}
    (hv : advance s n a k = some v) (hb : red n v = red n b) : delta n (reduced n a) (reduced n b) ≤ k := by
  obtain ⟨v', hv', hred⟩ := exists_advance s n a k
  obtain rfl : v = v' := Option.some.inj (hv.symm.trans hv')
  have hdelta := (reduced_eq_add_emod_iff n a b k).mp (((red_eq_iff_reduced_eq n v b).mp hb).symm.trans hred)
  rw [hdelta]
  exact_mod_cast Nat.mod_le k n.ring

/-! The half-range check (41_distance.md R58). -/

theorem isHalf_iff (n : Width) (a b : Int) : isHalf n a b = true ↔ delta n a b = n.half := beq_iff_eq

theorem isHalf_eq_false_iff (n : Width) (a b : Int) : isHalf n a b = false ↔ delta n a b ≠ n.half :=
  beq_eq_false_iff_ne

theorem isHalf_iff_red_sub_red (n : Width) (a b : Word n.portBits) :
    isHalf n (reduced n a) (reduced n b) = true ↔ red n b - red n a = BitVec.twoPow n.bits (n.bits - 1) := by
  rw [isHalf_iff, ← uint_red_sub_red, ← BitVec.toNat_inj, n.toNat_twoPow_last, uint, Nat.cast_inj]

theorem isHalf_iff_red_eq_xor (n : Width) (a b : Word n.portBits) :
    isHalf n (reduced n a) (reduced n b) = true ↔ red n b = red n a ^^^ BitVec.twoPow n.bits (n.bits - 1) := by
  rw [isHalf_iff_red_sub_red, BitVec.sub_eq_iff_eq_add, add_comm, add_twoPow_last_eq_xor]

theorem isHalf_iff_reduced_eq (n : Width) (a b : Word n.portBits) :
    isHalf n (reduced n a) (reduced n b) = true ↔ reduced n b = (reduced n a + n.half) % (n.ring : Int) := by
  have hhalf : (n.half : Int) % n.ring = n.half :=
    Int.emod_eq_of_lt (by omega) (by have := n.ring_eq_two_half; have := n.half_ge; omega)
  rw [isHalf_iff, reduced_eq_add_emod_iff, hhalf]

theorem isHalf_swap (n : Width) (a b : Word n.portBits) :
    isHalf n (reduced n a) (reduced n b) = true ↔ isHalf n (reduced n b) (reduced n a) = true := by
  have hring := n.ring_eq_two_half
  have hhalf := n.half_ge
  have hab := delta_reduced_cases n a b
  have hba := delta_reduced_cases n b a
  rw [isHalf_iff, isHalf_iff]
  omega

theorem reduced_ne_of_isHalf {n : Width} {a b : Word n.portBits} (h : isHalf n (reduced n a) (reduced n b) = true) :
    reduced n a ≠ reduced n b := by
  intro he
  have hhalf := n.half_ge
  rw [isHalf_iff, he, delta_self] at h
  omega

/-- Bit N-1 of a raw operand says which half of the ring it reduces into. -/
theorem getLsbD_last_iff (n : Width) (a : Word n.portBits) :
    a.getLsbD (n.bits - 1) = true ↔ (n.half : Int) ≤ reduced n a := by
  have hlast : (red n a).getLsbD (n.bits - 1) = a.getLsbD (n.bits - 1) := by
    have hbits := n.bits_ge
    simp [red_eq_setWidth, show n.bits - 1 < n.bits by omega]
  rw [← hlast, BitVec.getLsbD_last, decide_eq_true_iff, reduced, uint, Nat.cast_le, Width.half]

/-! The distance of two operands, by their forward delta (41_distance.md R60). -/

section ByDelta

variable {n : Width} {a b : Word n.portBits}

/-- Short of the tie the distance is the way forward. -/
theorem distOf_of_delta_lt (h : delta n (reduced n a) (reduced n b) < n.half) :
    distOf n a b = delta n (reduced n a) (reduced n b) := by
  rw [distOf, serialDist, if_neg (by rw [isHalf_iff]; omega), if_pos h]

/-- Past the tie the distance is the way back, negated. -/
theorem distOf_of_lt_delta (h : (n.half : Int) < delta n (reduced n a) (reduced n b)) :
    distOf n a b = delta n (reduced n a) (reduced n b) - n.ring := by
  rw [distOf, serialDist, if_neg (by rw [isHalf_iff]; omega), if_neg (by omega)]

/-- At the tie the numerically smaller reduced operand sees the larger behind it (41_distance.md R59). -/
theorem distOf_of_tie_of_lt (h : isHalf n (reduced n a) (reduced n b) = true) (hlt : reduced n a < reduced n b) :
    distOf n a b = -(n.half : Int) := by
  rw [distOf, serialDist, if_pos h, tieBreak, if_pos hlt]

/-- At the tie the numerically larger reduced operand sees the smaller ahead of it (41_distance.md R59). -/
theorem distOf_of_tie_of_gt (h : isHalf n (reduced n a) (reduced n b) = true) (hgt : reduced n b < reduced n a) :
    distOf n a b = n.half := by
  rw [distOf, serialDist, if_pos h, tieBreak, if_neg hgt.not_gt]

end ByDelta

/-! The distance of two operands, by their reductions. -/

section ByReduction

variable (n : Width) (a b : Word n.portBits)

/-- `dist_cases` for the reductions of two raw operands. -/
theorem distOf_cases :
    (-(n.half : Int) < reduced n b - reduced n a ∧ reduced n b - reduced n a < n.half ∧
      distOf n a b = reduced n b - reduced n a) ∨
    ((n.half : Int) < reduced n b - reduced n a ∧ distOf n a b = reduced n b - reduced n a - n.ring) ∨
    (reduced n b - reduced n a < -(n.half : Int) ∧ distOf n a b = reduced n b - reduced n a + n.ring) ∨
    (reduced n b - reduced n a = n.half ∧ distOf n a b = -(n.half : Int)) ∨
    (reduced n b - reduced n a = -(n.half : Int) ∧ distOf n a b = n.half) :=
  dist_cases n (reduced_nonneg n a) (reduced_lt n a) (reduced_nonneg n b) (reduced_lt n b)

/-- Measured the other way the distance is negated, at the tie too. -/
theorem distOf_swap : distOf n b a = -distOf n a b := by
  have hhalf := n.half_ge
  have hab := distOf_cases n a b
  have hba := distOf_cases n b a
  omega

theorem distOf_eq_zero_iff : distOf n a b = 0 ↔ red n a = red n b := by
  have hring := n.ring_eq_two_half
  have hhalf := n.half_ge
  have ha0 := reduced_nonneg n a; have ha1 := reduced_lt n a
  have hb0 := reduced_nonneg n b; have hb1 := reduced_lt n b
  have hab := distOf_cases n a b
  rw [red_eq_iff_reduced_eq]
  omega

end ByReduction

/-- A positive distance is the way forward, and no longer than the way back (41_distance.md R66). -/
theorem distOf_of_pos {n : Width} {a b : Word n.portBits} (h : 0 < distOf n a b) :
    distOf n a b = delta n (reduced n a) (reduced n b) ∧ distOf n a b ≤ delta n (reduced n b) (reduced n a) := by
  have hring := n.ring_eq_two_half
  have hsum := delta_add_delta_swap (mt (distOf_eq_zero_iff n a b).mpr h.ne')
  rcases lt_trichotomy (delta n (reduced n a) (reduced n b)) n.half with hlt | htie | hgt
  · have hdist := distOf_of_delta_lt hlt
    omega
  · have hhalf := (isHalf_iff ..).mpr htie
    rcases lt_or_gt_of_ne (reduced_ne_of_isHalf hhalf) with hless | hmore
    · have hdist := distOf_of_tie_of_lt hhalf hless
      omega
    · have hdist := distOf_of_tie_of_gt hhalf hmore
      omega
  · have hdist := distOf_of_lt_delta hgt
    have hdelta := delta_lt_ring n (reduced n a) (reduced n b)
    omega

/-- The magnitude of the distance is the shorter of the two ways round (41_distance.md R65). -/
theorem natAbs_distOf (n : Width) (a b : Word n.portBits) :
    ((distOf n a b).natAbs : Int) =
      min (delta n (reduced n a) (reduced n b)) (delta n (reduced n b) (reduced n a)) := by
  rcases lt_trichotomy (distOf n a b) 0 with hneg | hzero | hpos
  · have hpos : 0 < distOf n b a := by rw [distOf_swap]; omega
    obtain ⟨hback, hle⟩ := distOf_of_pos hpos
    rw [distOf_swap] at hback hle
    omega
  · have hred := (red_eq_iff_reduced_eq n a b).mp ((distOf_eq_zero_iff n a b).mp hzero)
    rw [hzero, hred, delta_self]
    rfl
  · obtain ⟨hforward, hle⟩ := distOf_of_pos hpos
    omega

/-- Every integer of [-H, H) is the distance from 0 to itself, driven as a literal (41_distance.md R68). -/
theorem distOf_zero_bv (n : Width) {r : Int} (h0 : -(n.half : Int) ≤ r) (h1 : r < n.half) :
    distOf n (bv n.portBits 0) (bv n.portBits r) = r := by
  have hring := n.ring_eq_two_half
  have hzero : reduced n (bv n.portBits 0) = 0 := by rw [reduced_bv, Int.zero_emod]
  have hdist := distOf_cases n (bv n.portBits 0) (bv n.portBits r)
  rcases lt_or_ge r 0 with hneg | hnonneg
  · have hr : reduced n (bv n.portBits r) = r + n.ring := by
      rw [reduced_bv, ← Int.add_emod_right, Int.emod_eq_of_lt (by omega) (by omega)]
    omega
  · have hr : reduced n (bv n.portBits r) = r := by
      rw [reduced_bv, Int.emod_eq_of_lt (by omega) (by omega)]
    omega

/-! The two other forms of the distance (41_distance.md R62, R64). -/

/-- The path algorithm for a first operand below the second: the inner path leads forward, the outer one back. -/
theorem distByPaths_of_lt (n : Width) {a b : Int} (h : a < b) :
    distByPaths n a b = if b - a < a + (n.ring - b) then b - a
      else if a + (n.ring - b) < b - a then -(a + (n.ring - b)) else -(n.half : Int) := by
  simp only [distByPaths, min_eq_left h.le, max_eq_right h.le, if_neg h.ne, if_pos h, if_neg h.not_gt, tieBreak]

/-- The path algorithm for a first operand above the second: the inner path leads back, the outer one forward. -/
theorem distByPaths_of_gt (n : Width) {a b : Int} (h : b < a) :
    distByPaths n a b = if a - b < b + (n.ring - a) then -(a - b)
      else if b + (n.ring - a) < a - b then b + (n.ring - a) else (n.half : Int) := by
  simp only [distByPaths, min_eq_right h.le, max_eq_left h.le, if_neg h.ne', if_pos h, if_neg h.not_gt, tieBreak]

theorem distByPaths_self (n : Width) (a : Int) : distByPaths n a a = 0 := if_pos rfl

/-- The N-bit difference read signed: from the tie on it is the way back, negated. -/
theorem sint_red_sub_red (n : Width) (a b : Word n.portBits) :
    sint (red n b - red n a) = if delta n (reduced n a) (reduced n b) < n.half
      then delta n (reduced n a) (reduced n b) else delta n (reduced n a) (reduced n b) - n.ring := by
  have hring := n.ring_eq_two_half
  rw [← uint_red_sub_red, sint, uint, BitVec.toInt_eq_toNat_cond]
  change (if 2 * _ < n.ring then _ else _ - (n.ring : Int)) = _
  split_ifs <;> omega

/-- Away from the tie the distance is the N-bit difference read signed (41_distance.md R64). -/
theorem distOf_of_not_isHalf {n : Width} {a b : Word n.portBits}
    (h : isHalf n (reduced n a) (reduced n b) = false) : distOf n a b = sint (red n b - red n a) := by
  rw [isHalf_eq_false_iff] at h
  rw [sint_red_sub_red]
  rcases lt_or_gt_of_ne h with hlt | hgt
  · rw [if_pos hlt, distOf_of_delta_lt hlt]
  · rw [if_neg hgt.not_gt, distOf_of_lt_delta hgt]

section Tie

variable {n : Width} {a b : Word n.portBits} (h : isHalf n (reduced n a) (reduced n b) = true)
include h

/-- At the tie the first operand is the larger exactly when its bit N-1 is set (41_distance.md R64). -/
theorem reduced_gt_iff_getLsbD_last : reduced n b < reduced n a ↔ a.getLsbD (n.bits - 1) = true := by
  have hring := n.ring_eq_two_half
  have hb0 := reduced_nonneg n b; have hb1 := reduced_lt n b
  have hdelta := delta_reduced_cases n a b
  rw [isHalf_iff] at h
  rw [getLsbD_last_iff]
  omega

/-- At the tie bit N-1 of the first operand decides the sign (41_distance.md R64). -/
theorem distOf_of_isHalf :
    distOf n a b = if a.getLsbD (n.bits - 1) then (n.half : Int) else -(n.half : Int) := by
  have hne := reduced_ne_of_isHalf h
  have hbit := reduced_gt_iff_getLsbD_last h
  rcases lt_or_gt_of_ne hne with hlt | hgt
  · rw [if_neg (hbit.not.mp hlt.not_gt), distOf_of_tie_of_lt h hlt]
  · rw [if_pos (hbit.mp hgt), distOf_of_tie_of_gt h hgt]

/-- The two operands of a tie differ in bit N-1 (41_distance.md R58). -/
theorem getLsbD_last_of_isHalf : b.getLsbD (n.bits - 1) = !a.getLsbD (n.bits - 1) := by
  have ha := reduced_gt_iff_getLsbD_last h
  have hb := reduced_gt_iff_getLsbD_last ((isHalf_swap n a b).mp h)
  have hne := reduced_ne_of_isHalf h
  rw [Bool.eq_not_iff, ne_eq, Bool.eq_iff_iff, ← ha, ← hb]
  omega

end Tie

/-- The one-bit form gives the distance (41_distance.md R64). -/
theorem distByBits_eq_distOf (n : Width) (a b : Word n.portBits) : distByBits n a b = distOf n a b := by
  have hring := n.ring_eq_two_half
  cases h : isHalf n (reduced n a) (reduced n b) with
  | false =>
    have hne : red n b - red n a ≠ BitVec.twoPow n.bits (n.bits - 1) := by
      rw [ne_eq, ← isHalf_iff_red_sub_red, h]
      exact Bool.false_ne_true
    rw [distByBits, if_neg (fun hc => hne hc.1), distOf_of_not_isHalf h]
  | true =>
    have hread : sint (red n b - red n a) = -(n.half : Int) := by
      rw [sint_red_sub_red, (isHalf_iff ..).mp h, if_neg (lt_irrefl _)]
      omega
    simp only [distByBits, (isHalf_iff_red_sub_red n a b).mp h, true_and, distOf_of_isHalf h]
    rw [← (isHalf_iff_red_sub_red n a b).mp h, hread]

/-! The answer of DIST. -/

/-- DIST answers the distance and no other integer (41_distance.md R61). -/
theorem answers_dist_iff (s : State) (n : Width) (a b : Word n.portBits) (r : Int) :
    Answers s n .dist a b r ↔ distOf n a b = r := by
  rw [answers_iff, ← sint_distResult]
  rfl

end Sys2Proof.Machine

/-! The obligations of the distance. -/

namespace Sys2Proof.Distance

open Sys2Proof Sys2Proof.Machine

/-- Settles O20: RES reads as `distOf`, which has one lemma for each branch of the closed form. -/
theorem distPresentsTheSignedDistance : Obligations.DistPresentsTheSignedDistance := by
  intro s
  refine ⟨_, exec_eq .dist s, ?_⟩
  have hread : sint (resultOf .dist s.sel s.s0 s.s1) = distOf s.sel s.s0 s.s1 := sint_distResult ..
  rw [s.present_res, hread, ← s.sel.ring_cast]
  rintro _ _ _ rfl rfl rfl
  exact ⟨distOf_of_delta_lt, distOf_of_lt_delta, fun hd => distOf_of_tie_of_lt ((isHalf_iff ..).mpr hd),
    fun hd => distOf_of_tie_of_gt ((isHalf_iff ..).mpr hd)⟩

/-- Settles O21: RES of DISTU reads as the magnitude of the distance, the smaller forward delta. -/
theorem distuPresentsTheMagnitude : Obligations.DistuPresentsTheMagnitude := by
  intro s
  refine ⟨_, _, exec_eq .distu s, exec_eq .dist s, ?_⟩
  have hdist : sint (resultOf .dist s.sel s.s0 s.s1) = distOf s.sel s.s0 s.s1 := sint_distResult ..
  have hdistu : uint (resultOf .distu s.sel s.s0 s.s1) = ((distOf s.sel s.s0 s.s1).natAbs : Int) := uint_distuResult ..
  rw [s.present_res, s.present_res, hdist, hdistu]
  exact ⟨Int.natCast_natAbs _, natAbs_distOf ..⟩

/-- Settles O29: `k` increments go `k` forward, so they meet the target from the forward delta on and not before. -/
theorem deltaCountsForwardIncrements : Obligations.DeltaCountsForwardIncrements := by
  intro s n a b
  refine ⟨?_, delta_nonneg .., delta_lt_ring .., fun h => ?_, delta_add_delta_swap, (uint_red_sub_red n a b).symm,
    exists_advance_delta s n a b, fun _ _ => delta_le_of_advance⟩
  · rw [← n.ring_cast]
    rfl
  · rw [(red_eq_iff_reduced_eq n a b).mp h, delta_self]

/-- Settles O30: a delta of H is an N-bit difference of the top bit alone, and adding that bit inverts it. -/
theorem halfPartnerIsTheTopBitInverted : Obligations.HalfPartnerIsTheTopBitInverted := fun n a b =>
  ⟨isHalf_iff .., isHalf_swap n a b, isHalf_iff_red_sub_red n a b, isHalf_iff_red_eq_xor n a b,
    isHalf_iff_reduced_eq n a b⟩

/-- Settles O31: the tie-break, and H is not the delta of a word and itself. -/
theorem tieSignFollowsTheReducedOrder : Obligations.TieSignFollowsTheReducedOrder := by
  intro s n a b h
  simp only [answers_dist_iff]
  exact ⟨distOf_of_tie_of_lt h, distOf_of_tie_of_gt h, reduced_ne_of_isHalf h⟩

/-- Settles O32, by the order of the operands, as R63 argues: which of the two paths is the shorter says on which side
of the tie their difference lies. -/
theorem pathAlgorithmEqualsClosedForm : Obligations.PathAlgorithmEqualsClosedForm := by
  intro n a b ha0 ha1 hb0 hb1
  have hring := n.ring_eq_two_half
  have hhalf := n.half_ge
  have hmax : (n.max : Int) = n.ring - 1 := by rw [n.max_eq]; omega
  have hdist := dist_cases n ha0 (by omega) hb0 (by omega)
  rcases lt_trichotomy a b with hlt | rfl | hgt
  · rw [distByPaths_of_lt n hlt]
    split_ifs <;> omega
  · rw [distByPaths_self]
    omega
  · rw [distByPaths_of_gt n hgt]
    split_ifs <;> omega

/-- Settles O33: the signed reading of the N-bit difference is the distance but for H at the tie, where bit N-1 of S0
tells the larger operand. -/
theorem oneBitFormGivesTheDistance : Obligations.OneBitFormGivesTheDistance := by
  intro s n a b
  simp only [answers_dist_iff]
  exact ⟨(distByBits_eq_distOf n a b).symm, distOf_of_not_isHalf,
    fun h => ⟨distOf_of_isHalf h, getLsbD_last_of_isHalf h⟩⟩

/-- Settles O34: a positive distance is the forward delta, which counts increments; a negative one is a positive one
seen from S1. -/
theorem distanceCountsTheIncrements : Obligations.DistanceCountsTheIncrements := by
  intro s n a b
  refine ⟨distOf n a b, (answers_dist_iff ..).mpr rfl, fun hpos => ?_, fun hneg => ?_, distOf_eq_zero_iff n a b⟩
  · obtain ⟨hforward, hle⟩ := distOf_of_pos hpos
    exact ⟨hle, hforward ▸ exists_advance_delta s n a b⟩
  · rw [← distOf_swap]
    obtain ⟨hback, hle⟩ := distOf_of_pos (a := b) (b := a) (by rw [distOf_swap]; omega)
    exact ⟨hle, hback ▸ exists_advance_delta s n b a⟩

/-- Settles O35: the three operations see the low N bits of their operands, which reducing first keeps. -/
theorem distanceSeesReducedOperands : Obligations.DistanceSeesReducedOperands := by
  intro s n i a b hi
  refine ⟨⟨_, respond_eq s n i a b⟩, ?_⟩
  rw [respond_eq, respond_eq,
    resultOf_congr_red (red_zext n (red n a)).symm (red_zext n (red n b)).symm (.inr hi)]

/-- Settles O36: the distance from 0 attains [-H, H), and H is the distance from -H to 0. -/
theorem distanceRangeIsAttained : Obligations.DistanceRangeIsAttained := by
  intro s n r
  simp only [answers_dist_iff]
  constructor
  · rintro ⟨a, b, rfl⟩
    exact distOf_bounds n a b
  · rintro ⟨hlo, hhi⟩
    rcases lt_or_eq_of_le hhi with hlt | rfl
    · exact ⟨_, _, distOf_zero_bv n hlo hlt⟩
    · have hhalf := n.half_ge
      refine ⟨bv n.portBits (-(n.half : Int)), bv n.portBits 0, ?_⟩
      rw [distOf_swap, distOf_zero_bv n le_rfl (by omega), neg_neg]

end Sys2Proof.Distance

/-! ## 42_compare.md: CMP as the negated distance, its sign and its want of transitivity -/

/-! The distance of literals that are a known way apart (41_distance.md R60). -/

namespace Sys2Proof.Machine

/-- An operand `r` away from another around the ring, with `r` strictly inside (-H, H), is at distance `r`. -/
theorem distOf_of_reduced_eq_add {n : Width} {a b : Word n.portBits} {r : Int} (h0 : -(n.half : Int) < r)
    (h1 : r < n.half) (h : reduced n b = (reduced n a + r) % (n.ring : Int)) : distOf n a b = r := by
  have hring := n.ring_eq_two_half
  have hdelta := (reduced_eq_add_emod_iff n a b r).mp h
  rcases lt_or_ge r 0 with hneg | hnonneg
  · rw [← Int.add_emod_right, Int.emod_eq_of_lt (by omega) (by omega)] at hdelta
    rw [distOf_of_lt_delta (by omega), hdelta, add_sub_cancel_right]
  · rw [Int.emod_eq_of_lt hnonneg (by omega)] at hdelta
    rw [distOf_of_delta_lt (by omega), hdelta]

/-- The same for two literals. -/
theorem distOf_bv_bv {n : Width} {x y r : Int} (h0 : -(n.half : Int) < r) (h1 : r < n.half)
    (h : y ≡ x + r [ZMOD n.ring]) : distOf n (bv n.portBits x) (bv n.portBits y) = r := by
  refine distOf_of_reduced_eq_add h0 h1 ?_
  rw [reduced_bv, reduced_bv, Int.emod_add_emod]
  exact h

/-! The answer of CMP, and what a host reads from it (42_compare.md R71, R72). -/

/-- CMP answers the negated distance and no other integer. -/
theorem answers_cmp_iff (s : State) (n : Width) (a b : Word n.portBits) (r : Int) :
    Answers s n .cmp a b r ↔ -distOf n a b = r := by
  rw [answers_iff, ← sint_cmpResult]
  rfl

theorem saysPrecedes_cmpResult_iff (n : Width) (a b : Word n.portBits) :
    saysPrecedes (cmpResult n a b) = true ↔ 0 < distOf n a b := by
  rw [saysPrecedes, decide_eq_true_iff, sint_cmpResult, neg_lt_zero]

theorem saysFollows_cmpResult_iff (n : Width) (a b : Word n.portBits) :
    saysFollows (cmpResult n a b) = true ↔ distOf n a b < 0 := by
  rw [saysFollows, decide_eq_true_iff, sint_cmpResult, neg_pos]

theorem saysEqual_cmpResult_iff (n : Width) (a b : Word n.portBits) :
    saysEqual (cmpResult n a b) = true ↔ red n a = red n b := by
  rw [saysEqual, decide_eq_true_iff, sint_cmpResult, neg_eq_zero, distOf_eq_zero_iff]

/-- CMP is antisymmetric, at the tie too. -/
theorem answers_cmp_swap (s : State) (n : Width) (a b : Word n.portBits) :
    Answers s n .cmp b a (-sint (cmpResult n a b)) := by
  rw [answers_cmp_iff, distOf_swap, sint_cmpResult]

/-- CMP of two literals `r` apart around the ring, with `r` strictly inside (-H, H), is `-r`. -/
theorem answersInt_cmp (s : State) {n : Width} {x y r : Int} (h0 : -(n.half : Int) < r) (h1 : r < n.half)
    (h : y ≡ x + r [ZMOD n.ring]) : AnswersInt s n .cmp x y (-r) := by
  rw [AnswersInt, answers_cmp_iff, distOf_bv_bv h0 h1 h]

end Sys2Proof.Machine

/-! The obligations of CMP. -/

namespace Sys2Proof.Compare

open Sys2Proof Sys2Proof.Machine

/-- Settles O22: RES of DIST reads as `distOf`, and RES of CMP as its negation, for the same operands. -/
theorem cmpPresentsTheNegatedDistance : Obligations.CmpPresentsTheNegatedDistance := by
  intro s
  refine ⟨_, _, exec_eq .cmp s, exec_eq .dist s, ?_⟩
  have hcmp : sint (resultOf .cmp s.sel s.s0 s.s1) = -distOf s.sel s.s0 s.s1 := sint_cmpResult ..
  have hdist : sint (resultOf .dist s.sel s.s0 s.s1) = distOf s.sel s.s0 s.s1 := sint_distResult ..
  rw [s.present_res, s.present_res, hcmp, hdist]
  exact ⟨rfl, rfl⟩

/-- Settles O37: the sign, the zero and the tie are those of the distance, negated. H - 1 is the way from 0 to H - 1 and
from there to 2H - 2, which is -2 modulo R, so that 0 follows it. -/
theorem comparisonSign : Obligations.ComparisonSign := by
  intro s n a b
  have hring : (n.ring : Int) = 2 * n.half := by exact_mod_cast n.ring_eq_two_half
  have hhalf := n.half_ge
  refine ⟨cmpResult n a b, distResult n a b, respond_eq s n .cmp a b, respond_eq s n .dist a b, ?_⟩
  rw [sint_distResult]
  refine ⟨saysPrecedes_cmpResult_iff n a b, saysFollows_cmpResult_iff n a b, saysEqual_cmpResult_iff n a b,
    fun htie => ?_, answers_cmp_swap s n a b, ?_, ?_, ?_⟩
  · rw [sint_cmpResult]
    exact ⟨fun hlt => by rw [distOf_of_tie_of_lt htie hlt, neg_neg],
      fun hgt => by rw [distOf_of_tie_of_gt htie hgt]⟩
  · rw [← neg_sub (n.half : Int) 1]
    exact answersInt_cmp s (by omega) (by omega) (by rw [zero_add])
  · rw [← neg_sub (n.half : Int) 1]
    have hdouble : 2 * (n.half : Int) - 2 = n.half - 1 + (n.half - 1) := by ring
    exact answersInt_cmp s (by omega) (by omega) (by rw [hdouble])
  · have hwrap : 2 * (n.half : Int) - 2 ≡ 0 + -2 [ZMOD n.ring] := Int.modEq_iff_dvd.mpr ⟨-1, by omega⟩
    exact answersInt_cmp s (by omega) (by omega) hwrap

end Sys2Proof.Compare

/-! ## 43_bits_inrange.md: the width constant and the range bit -/

/-! The range condition of INRANGE in its four forms (43_bits_inrange.md R75, R76). -/

namespace Sys2Proof.Machine

theorem inRange_iff (n : Width) (i : Int) : inRange n i = true ↔ 0 ≤ i ∧ i ≤ 2 ^ n.bits - 1 := by
  have hmax : (n.max : Int) = 2 ^ n.bits - 1 := by
    rw [n.max_eq, ← n.ring_cast, Nat.cast_sub n.ring_pos, Nat.cast_one]
  rw [inRange, Bool.and_eq_true, decide_eq_true_iff, decide_eq_true_iff, hmax]

section RawOperand

variable (n : Width) (a : Word n.portBits)

/-- A zero-extended reduction is a serial value, which reads the same signed and unsigned (30_encoding.md R43). -/
theorem sint_zext_red : sint (zext n.portBits (red n a)) = reduced n a := by
  have huint : uint (zext n.portBits (red n a)) = reduced n a :=
    uint_zext _ (by have := n.bits_add_two_le; omega)
  rw [sint_eq_uint_of_lt_ring n _ (huint.trans_lt (reduced_lt n a)), huint]

/-- The signed range is the set of the words that reduction leaves as they are. -/
theorem inRange_sint_iff_zext_red_eq : inRange n (sint a) = true ↔ zext n.portBits (red n a) = a := by
  rw [inRange_iff, ← n.ring_cast]
  constructor
  · rintro ⟨hlo, hhi⟩
    refine BitVec.eq_of_toInt_eq ((sint_zext_red n a).trans ?_)
    rw [reduced_eq_emod, Int.emod_eq_of_lt hlo (by omega), sint]
  · intro hself
    have hread : reduced n a = sint a := by rw [← sint_zext_red, hself]
    have hlo := reduced_nonneg n a
    have hhi := reduced_lt n a
    omega

/-- Reduction followed by zero extension clears the bits from N up and keeps the others. -/
theorem getLsbD_zext_red (k : Nat) :
    (zext n.portBits (red n a)).getLsbD k = (decide (k < n.bits) && a.getLsbD k) := by
  have hle := n.bits_add_two_le
  rw [red_eq_setWidth, zext, BitVec.getLsbD_setWidth, BitVec.getLsbD_setWidth]
  by_cases hk : k < n.bits
  · rw [decide_eq_true (show k < n.portBits by omega), Bool.true_and]
  · rw [decide_eq_false hk, Bool.false_and, Bool.and_false]

theorem zext_red_eq_iff_getLsbD : zext n.portBits (red n a) = a ↔ ∀ k, n.bits ≤ k → a.getLsbD k = false := by
  constructor
  · intro hself k hk
    rw [← hself, getLsbD_zext_red, decide_eq_false (by omega), Bool.false_and]
  · intro hclear
    refine BitVec.eq_of_getLsbD_eq fun k _ => ?_
    rw [getLsbD_zext_red]
    by_cases hk : k < n.bits
    · rw [decide_eq_true hk, Bool.true_and]
    · rw [hclear k (by omega), Bool.and_false]

/-- The OR runs over the wires N to W - 1; above them a word has no bit. -/
theorem upperBitsClear_iff : upperBitsClear n a = true ↔ ∀ k, n.bits ≤ k → a.getLsbD k = false := by
  have hwires : upperBitsClear n a = true ↔ ∀ j, j < n.portBits - n.bits → a.getLsbD (n.bits + j) = false := by
    simp [upperBitsClear]
  rw [hwires]
  constructor
  · intro h k hk
    rcases lt_or_ge k n.portBits with hlt | hge
    · have hj := h (k - n.bits) (by omega)
      rwa [Nat.add_sub_cancel' hk] at hj
    · exact BitVec.getLsbD_of_ge a k hge
  · exact fun h j _ => h _ (Nat.le_add_right ..)

end RawOperand

/-! RES of INRANGE (30_encoding.md R44). -/

theorem booleanResult_true (n : Width) : booleanResult n true = 1 := by cases n <;> rfl

theorem booleanResult_false (n : Width) : booleanResult n false = 0 := by cases n <;> rfl

theorem saysTrue_booleanResult (n : Width) (c : Bool) : saysTrue (booleanResult n c) = c := by
  cases c with
  | true => cases n <;> rfl
  | false => cases n <;> rfl

theorem saysTrue_inrangeResult (n : Width) (a : Word n.portBits) :
    saysTrue (inrangeResult n a) = inRange n (sint a) := saysTrue_booleanResult n _

end Sys2Proof.Machine

/-! The obligations of BITS and INRANGE. -/

namespace Sys2Proof.Validity

open Sys2Proof Sys2Proof.Machine

/-- Settles O23: RES is the boolean format of the range condition, which is true or false. -/
theorem inrangePresentsTheRangeBit : Obligations.InrangePresentsTheRangeBit := by
  intro s
  refine ⟨_, exec_eq .inrange s, ?_⟩
  have hres : resultOf .inrange s.sel s.s0 s.s1 = booleanResult s.sel (inRange s.sel (sint s.s0)) := rfl
  rw [s.present_res, hres, ← inRange_iff]
  constructor
  · intro hin
    rw [hin, booleanResult_true]
  · intro hout
    rw [Bool.eq_false_of_not_eq_true hout, booleanResult_false]

/-- Settles O24: the range condition holds of the words that reduction leaves alone, which are those whose bits from N
up are clear. -/
theorem inrangeIsUpperBitsClear : Obligations.InrangeIsUpperBitsClear := by
  intro s n a b
  have hred : saysTrue (inrangeResult n a) = true ↔ zext n.portBits (red n a) = a := by
    rw [saysTrue_inrangeResult, inRange_sint_iff_zext_red_eq]
  have hclear := hred.trans (zext_red_eq_iff_getLsbD n a)
  exact ⟨inrangeResult n a, respond_eq s n .inrange a b,
    Bool.eq_iff_iff.mpr (hclear.trans (upperBitsClear_iff n a).symm), hclear, hred⟩

/-- Settles O19: RES is the constant of the addressed width, which fits the six bits of its format. -/
theorem bitsPresentsTheWidth : Obligations.BitsPresentsTheWidth := by
  intro s
  refine ⟨_, exec_eq .bits s, ?_⟩
  rw [s.present_res]
  exact uint_bitsResult s.sel

end Sys2Proof.Validity

/-! ## 45_laws.md: the laws of the ring -/

/-! What DISTU, INRANGE and ADD answer (40_add.md R54, 41_distance.md R65, 43_bits_inrange.md R75). -/

namespace Sys2Proof.Machine

/-- DISTU answers the magnitude of the distance and no other integer. -/
theorem answers_distu_iff (s : State) (n : Width) (a b : Word n.portBits) (r : Int) :
    Answers s n .distu a b r ↔ |distOf n a b| = r := by
  rw [answers_iff, ← Int.natCast_natAbs, ← uint_distuResult]
  rfl

/-- INRANGE answers 1 for a serial value, 0 for any other operand, and no other integer. -/
theorem answers_inrange_iff (s : State) (n : Width) (a b : Word n.portBits) (r : Int) :
    Answers s n .inrange a b r ↔ (if 0 ≤ sint a ∧ sint a < n.ring then 1 else 0) = r := by
  rw [answers_iff, ← uint_inrangeResult]
  rfl

theorem answersInt_add (s : State) (n : Width) (x y : Int) : AnswersInt s n .add x y ((x + y) % (n.ring : Int)) := by
  refine (answers_iff ..).mpr ((uint_addResult_eq_reduced ..).trans ?_)
  rw [reduced_bv, reduced_bv, ← Int.add_emod]

/-- DIST of two literals `r` apart around the ring, with `r` strictly inside (-H, H), is `r`. -/
theorem answersInt_dist (s : State) {n : Width} {x y r : Int} (h0 : -(n.half : Int) < r) (h1 : r < n.half)
    (h : y ≡ x + r [ZMOD n.ring]) : AnswersInt s n .dist x y r :=
  (answers_dist_iff ..).mpr (distOf_bv_bv h0 h1 h)

/-! Literals on a port, and words that are serial values (00_scope.md R9, R10). -/

/-- A port has room for every integer of [-R, R], so its pattern reads back as itself. -/
theorem sint_bv_port (n : Width) {i : Int} (h0 : -(n.ring : Int) ≤ i) (h1 : i ≤ n.ring) :
    sint (bv n.portBits i) = i := by
  have hring := n.ring_pos
  have hport := n.portBits_ge
  have hroom : 4 * (n.ring : Int) ≤ 2 ^ n.portBits := by exact_mod_cast n.four_ring_le_port
  have hhalf : (2 : Int) ^ n.portBits = 2 * 2 ^ (n.portBits - 1) := by
    rw [← pow_succ', Nat.sub_add_cancel (by omega)]
  exact BitVec.toInt_ofInt_eq_self (by omega) (by omega) (by omega)

/-- A serial value driven as a literal reads back unsigned as itself. -/
theorem uint_bv_port (n : Width) {i : Int} (h0 : 0 ≤ i) (h1 : i < n.ring) : uint (bv n.portBits i) = i := by
  have hroom : 4 * (n.ring : Int) ≤ 2 ^ n.portBits := by exact_mod_cast n.four_ring_le_port
  exact uint_bv h0 (by omega)

theorem reduced_of_uint_lt_ring {n : Width} {a : Word n.portBits} (h : uint a < n.ring) : reduced n a = uint a := by
  have h0 : 0 ≤ uint a := Int.natCast_nonneg _
  rw [reduced_eq_emod, sint_eq_uint_of_lt_ring n a h, Int.emod_eq_of_lt h0 h]

/-! The distance as a residue of the difference (45_laws.md R91). -/

/-- Going `r` forward from one operand meets another exactly when `r` is in the class of their raw difference. -/
theorem reduced_eq_add_emod_iff_dvd (n : Width) (a b : Word n.portBits) (r : Int) :
    reduced n b = (reduced n a + r) % (n.ring : Int) ↔ (n.ring : Int) ∣ r - (sint b - sint a) := by
  have hdiff : r - (sint b - sint a) = sint a + r - sint b := by ring
  rw [reduced_eq_emod, reduced_eq_emod, Int.emod_add_emod, hdiff, ← Int.modEq_iff_dvd]
  rfl

/-- The distance leads from the first reduced operand to the second, at the tie too. -/
theorem reduced_eq_add_distOf (n : Width) (a b : Word n.portBits) :
    reduced n b = (reduced n a + distOf n a b) % (n.ring : Int) := by
  have hring : (n.ring : Int) = 2 * n.half := by exact_mod_cast n.ring_eq_two_half
  have hself : reduced n b % (n.ring : Int) = reduced n b := Int.emod_eq_of_lt (reduced_nonneg n b) (reduced_lt n b)
  refine hself.symm.trans (Int.modEq_iff_dvd.mpr ?_)
  rcases distOf_cases n a b with ⟨-, -, h⟩ | ⟨-, h⟩ | ⟨-, h⟩ | ⟨hd, h⟩ | ⟨hd, h⟩
  · exact ⟨0, by omega⟩
  · exact ⟨-1, by omega⟩
  · exact ⟨1, by omega⟩
  · exact ⟨-1, by omega⟩
  · exact ⟨1, by omega⟩

theorem distOf_self (n : Width) (a : Word n.portBits) : distOf n a a = 0 := (distOf_eq_zero_iff n a a).mpr rfl

theorem abs_distOf_le_half (n : Width) (a b : Word n.portBits) : |distOf n a b| ≤ n.half :=
  abs_le.mpr (distOf_bounds n a b)

/-- Half the ring away, the half in which the first operand lies decides the sign (45_laws.md R86, R92). -/
theorem distOf_of_reduced_eq_add_half {n : Width} {a b : Word n.portBits}
    (h : reduced n b = (reduced n a + n.half) % (n.ring : Int)) :
    distOf n a b = if (n.half : Int) ≤ reduced n a then (n.half : Int) else -(n.half : Int) := by
  simp only [distOf_of_isHalf ((isHalf_iff_reduced_eq n a b).mpr h), getLsbD_last_iff]

/-- H ahead of a literal of the lower half lies the operand it sees H behind it (45_laws.md R86). -/
theorem distOf_bv_add_half (n : Width) {k : Int} (h0 : 0 ≤ k) (h1 : k < n.half) :
    distOf n (bv n.portBits k) (bv n.portBits (k + n.half)) = -(n.half : Int) := by
  have hring := n.ring_eq_two_half
  have hk : reduced n (bv n.portBits k) = k := (reduced_bv n k).trans (Int.emod_eq_of_lt h0 (by omega))
  rw [distOf_of_reduced_eq_add_half (by rw [hk, reduced_bv]), hk, if_neg h1.not_ge]

/-! The distance after an ADD (45_laws.md R82, R92). -/

theorem reduced_addResult_bv (n : Width) (a : Word n.portBits) (k : Int) :
    reduced n (addResult n a (bv n.portBits k)) = (reduced n a + k) % (n.ring : Int) := by
  rw [reduced_addResult, reduced_bv, Int.add_emod_emod]

/-- DIST undoes the ADD of an integer strictly inside (-H, H). -/
theorem distOf_addResult_bv (n : Width) (a : Word n.portBits) {k : Int} (h0 : -(n.half : Int) < k) (h1 : k < n.half) :
    distOf n a (addResult n a (bv n.portBits k)) = k :=
  distOf_of_reduced_eq_add h0 h1 (reduced_addResult_bv n a k)

/-- DIST after the ADD of H or of -H is at the tie, the sign of what was added being lost. -/
theorem distOf_addResult_bv_half (n : Width) (a : Word n.portBits) {k : Int}
    (hk : k = n.half ∨ k = -(n.half : Int)) :
    distOf n a (addResult n a (bv n.portBits k)) =
      if (n.half : Int) ≤ reduced n a then (n.half : Int) else -(n.half : Int) := by
  refine distOf_of_reduced_eq_add_half ((reduced_addResult_bv n a k).trans ?_)
  obtain rfl | rfl := hk
  · rfl
  · have hring := n.ring_eq_two_half
    have hround : reduced n a + n.half = reduced n a + -(n.half : Int) + n.ring := by omega
    rw [hround, Int.add_emod_right]

theorem distOf_addResult_one (n : Width) (a : Word n.portBits) : distOf n a (addResult n a (bv n.portBits 1)) = 1 :=
  have hhalf := n.half_ge
  distOf_addResult_bv n a (by omega) (by omega)

/-- ADD of the distance arrives at the reduced target (45_laws.md R92). -/
theorem uint_addResult_distResult (n : Width) (a b : Word n.portBits) :
    uint (addResult n a (distResult n a b)) = reduced n b := by
  rw [uint_addResult, sint_distResult, reduced_eq_add_distOf n a b, reduced_eq_emod n a, Int.emod_add_emod]

/-! Repeated increments (45_laws.md R90). -/

theorem advance_succ {s : State} {n : Width} {a x : Word n.portBits} {k : Nat} (h : advance s n a k = some x) :
    advance s n a (k + 1) = some (addResult n x (bv n.portBits 1)) := by
  rw [advance, h]
  exact respond_eq s n .add x _

/-- Increments keep to the serial values: each is the RES of an ADD. -/
theorem uint_lt_ring_of_advance {s : State} {n : Width} {a x : Word n.portBits} {k : Nat} (ha : uint a < n.ring)
    (h : advance s n a k = some x) : uint x < n.ring := by
  cases k with
  | zero =>
    obtain rfl : a = x := Option.some.inj h
    exact ha
  | succ k =>
    obtain ⟨v, hv, -⟩ := exists_advance s n a k
    obtain rfl : addResult n v (bv n.portBits 1) = x := Option.some.inj ((advance_succ hv).symm.trans h)
    exact uint_addResult_lt_ring n v _

/-- From a serial value `k` increments lead to the serial value `k` forward around the ring. -/
theorem exists_advance_uint (s : State) {n : Width} {a : Word n.portBits} (ha : uint a < n.ring) (k : Nat) :
    ∃ x, advance s n a k = some x ∧ uint x = (uint a + k) % (n.ring : Int) := by
  obtain ⟨x, hx, hred⟩ := exists_advance s n a k
  refine ⟨x, hx, ?_⟩
  rw [← reduced_of_uint_lt_ring (uint_lt_ring_of_advance ha hx), hred, reduced_of_uint_lt_ring ha]

/-- The walk from R - 4 wraps at its fourth increment. -/
theorem emod_ring_of_walk (n : Width) {k : Nat} (hk : k ≤ 6) :
    ((n.ring : Int) - 4 + k) % n.ring = if k < 4 then (n.ring : Int) - 4 + k else k - 4 := by
  have hring := n.ring_eq_two_half
  have hhalf := n.half_ge
  split_ifs with h
  · exact Int.emod_eq_of_lt (by omega) (by omega)
  · have hwrap : (n.ring : Int) - 4 + k = k - 4 + n.ring := by ring
    rw [hwrap, Int.add_emod_right, Int.emod_eq_of_lt (by omega) (by omega)]

end Sys2Proof.Machine

/-! The obligations of the laws. -/

namespace Sys2Proof.RingLaws

open Sys2Proof Sys2Proof.Machine

/-- Settles O38: RES is `addResult`, the residue of the sum, which INRANGE accepts. -/
theorem addStaysInRange : Obligations.AddStaysInRange := fun s n a b =>
  ⟨_, respond_eq s n .add a b, uint_addResult_nonneg n a b, uint_addResult_le_max n a b, uint_addResult n a b,
    answers_inrange_addResult s n a b⟩

/-- Settles O39: the distance changes sign with the order of the operands, and so does its negation. -/
theorem distanceAndComparisonAntisymmetric : Obligations.DistanceAndComparisonAntisymmetric := by
  intro s n a b
  simp only [answers_dist_iff, answers_cmp_iff, distOf_swap n a b]
  exact ⟨⟨_, rfl, rfl⟩, _, rfl, rfl⟩

/-- Settles O40: all three are read off the distance of a word and itself. -/
theorem distanceReflexive : Obligations.DistanceReflexive := by
  intro s n a
  simp only [answers_dist_iff, answers_cmp_iff, answers_distu_iff, distOf_self, neg_zero, abs_zero, and_self]

/-- Settles O41: 1 lies strictly inside (-H, H), so DIST undoes the increment wherever it stands on the ring. -/
theorem unitStep : Obligations.UnitStep := by
  intro s n a
  have hstep := distOf_addResult_one n a
  refine ⟨addResult n a (bv n.portBits 1), respond_eq s n .add a _, ?_⟩
  rw [answers_dist_iff, answers_dist_iff, answers_cmp_iff, distOf_swap n a, hstep]
  exact ⟨rfl, rfl, rfl⟩

/-- Settles O42: INRANGE answers 1 or 0 as its operand is a serial value or not; R and -1, read back signed, are none. -/
theorem inrangeIffValid : Obligations.InrangeIffValid := by
  intro s n a b
  have hring := n.ring_pos
  have htop := sint_bv_port n (i := n.ring) (by omega) le_rfl
  have hneg := sint_bv_port n (i := -1) (by omega) (by omega)
  simp only [answers_inrange_iff, htop, hneg]
  refine ⟨?_, ?_, if_neg (fun h => h.2.false), if_neg (fun h => by omega)⟩
  · split_ifs with h
    · exact iff_of_true rfl h
    · exact iff_of_false zero_ne_one h
  · split_ifs with h
    · exact iff_of_false one_ne_zero (not_not_intro h)
    · exact iff_of_true rfl h

/-- Settles O43: the distance, its magnitude and its negation have one magnitude, at most H. -/
theorem magnitudeBound : Obligations.MagnitudeBound := by
  intro s n a b
  have hbound := abs_distOf_le_half n a b
  exact ⟨distOf n a b, |distOf n a b|, -distOf n a b, (answers_dist_iff ..).mpr rfl, (answers_distu_iff ..).mpr rfl,
    (answers_cmp_iff ..).mpr rfl, hbound, hbound, (abs_neg _).trans_le hbound⟩

/-- Settles O44: (k, k + H) is a tie seen from the lower half; (0, H) is the one of k = 0. -/
theorem halfRingDeterminism : Obligations.HalfRingDeterminism := by
  intro s n
  have hhalf := n.half_ge
  have hzero : distOf n (bv n.portBits 0) (bv n.portBits n.half) = -(n.half : Int) := by
    simpa only [zero_add] using distOf_bv_add_half n le_rfl (by omega)
  have habs : |(n.half : Int)| = n.half := abs_of_nonneg (Int.natCast_nonneg _)
  simp only [AnswersInt, answers_dist_iff, answers_cmp_iff, answers_distu_iff,
    distOf_swap n (bv n.portBits 0) (bv n.portBits n.half), hzero, neg_neg, abs_neg, habs, true_and]
  intro k hk0 hk1
  rw [distOf_swap n (bv n.portBits k), distOf_bv_add_half n hk0 hk1, neg_neg]
  exact ⟨rfl, rfl⟩

/-- Settles O46: from a serial value the walk stays among serial values, and each of its steps is the unit step. -/
theorem walkAcrossTheWrap : Obligations.WalkAcrossTheWrap := by
  intro s n k hk
  have hring := n.ring_eq_two_half
  have hhalf := n.half_ge
  have hstart : uint (bv n.portBits (n.ring - 4)) = n.ring - 4 := uint_bv_port n (by omega) (by omega)
  have hlt : uint (bv n.portBits (n.ring - 4)) < n.ring := by omega
  obtain ⟨x, hx, hux⟩ := exists_advance_uint s hlt k
  obtain ⟨y, hy, huy⟩ := exists_advance_uint s hlt (k + 1)
  obtain rfl : y = addResult n x (bv n.portBits 1) := Option.some.inj (hy.symm.trans (advance_succ hx))
  rw [hstart, emod_ring_of_walk n (by omega)] at hux huy
  refine ⟨x, _, hx, hy, hux, huy.trans ?_, ?_⟩
  · push_cast
    split_ifs <;> omega
  · rw [answers_dist_iff, answers_cmp_iff, distOf_addResult_one]
    exact ⟨rfl, rfl⟩

/-- Settles O47: DIST leads from S0 to S1, so it is of the class of their difference; an integer of that class strictly
inside (-H, H) is itself the distance. -/
theorem distanceIsTheLeastResidue : Obligations.DistanceIsTheLeastResidue := by
  intro s n a b
  refine ⟨distOf n a b, (answers_dist_iff ..).mpr rfl,
    (reduced_eq_add_emod_iff_dvd n a b _).mp (reduced_eq_add_distOf n a b), fun e he h0 h1 => ?_, fun htie => ?_⟩
  · exact (distOf_of_reduced_eq_add h0 h1 ((reduced_eq_add_emod_iff_dvd n a b e).mpr he)).symm
  · rw [distOf, serialDist, if_pos htie, tieBreak]

/-- Settles O48: DIST leads from S0 to S1; the other way, ADD of `k` goes `k` forward, which DIST measures but for the
sign at the tie. -/
theorem addUndoesDist : Obligations.AddUndoesDist := by
  intro s n a b
  refine ⟨⟨_, respond_eq s n .dist a b, (answers_iff ..).mpr (uint_addResult_distResult n a b)⟩, ?_⟩
  intro k _ _ ha0 ha1
  have hring := n.ring_pos
  have hmax := n.max_eq
  have hvalid : reduced n a = sint a := (reduced_eq_emod n a).trans (Int.emod_eq_of_lt ha0 (by omega))
  refine ⟨addResult n a (bv n.portBits k), respond_eq s n .add a _, ?_⟩
  simp only [answers_dist_iff]
  refine ⟨distOf_addResult_bv n a, fun hk hlow => ?_, fun hk hhigh => ?_⟩
  · rw [distOf_addResult_bv_half n a hk, hvalid, if_neg hlow.not_ge]
  · rw [distOf_addResult_bv_half n a hk, hvalid, if_pos hhigh]

/-- Settles O50: one distance, negated or without its sign, which is all that the order of the operands changes. -/
theorem derivedOperationsAgreeWithDist : Obligations.DerivedOperationsAgreeWithDist := by
  intro s n a b
  refine ⟨distOf n a b, ?_⟩
  rw [answers_dist_iff, answers_cmp_iff, answers_distu_iff, answers_distu_iff, distOf_swap n a b, abs_neg]
  exact ⟨rfl, rfl, rfl, rfl⟩

/-- Settles O45: each literal is the other plus the distance modulo R; the increment across the wrap is the unit step. -/
theorem wrapScenarios : Obligations.WrapScenarios := by
  intro s
  obtain ⟨v, hv, hdist, -⟩ := unitStep s .n8 (bv Width.n8.portBits 255)
  exact ⟨answersInt_dist s (by decide) (by decide) (by decide), answersInt_dist s (by decide) (by decide) (by decide),
    answersInt_dist s (by decide) (by decide) (by decide), answersInt_dist s (by decide) (by decide) (by decide),
    answersInt_add s .n8 255 1, ⟨v, hv, hdist⟩,
    answersInt_dist s (by decide) (by decide) (by decide), answersInt_dist s (by decide) (by decide) (by decide),
    answersInt_dist s (by decide) (by decide) (by decide)⟩

/-- Settles O49: 0, 100 and 200 are 100 apart in turn and 56 apart the other way round; the tie is that of R86. -/
theorem whatIsNotALaw : Obligations.WhatIsNotALaw := by
  intro s
  have hcmp (x : Int) : AnswersInt s .n8 .cmp x (x + 100) (-100) :=
    answersInt_cmp s (by decide) (by decide) (Int.ModEq.refl _)
  have hdist (x : Int) : AnswersInt s .n8 .dist x (x + 100) 100 :=
    answersInt_dist s (by decide) (by decide) (Int.ModEq.refl _)
  have hwrap : 200 ≡ 0 + -56 [ZMOD Width.n8.ring] := by decide
  refine ⟨⟨hcmp 0, hcmp 100, answersInt_cmp s (by decide) (by decide) hwrap⟩,
    ⟨hdist 0, hdist 100, answersInt_dist s (by decide) (by decide) hwrap⟩, fun n => ?_⟩
  obtain ⟨hback, hahead, -⟩ := halfRingDeterminism s n
  exact ⟨hback, hahead⟩

end Sys2Proof.RingLaws

/-! ## 60_exceptions.md: no fault, and the refusal of a reserved code alone -/

/-! What a step can answer beside a next state, and the run of a safe program. -/

namespace Sys2Proof.Machine

/-- A transaction with a reserved code is refused (60_exceptions.md R100). -/
theorem step_of_decode_none {s : State} {t : Txn} {rest : List Txn} (hp : s.program = t :: rest)
    (hi : decode t.op = none) : step s = .refused .reservedOp := by
  have hop : decode (({ s with program := rest } : State).issue t).opcode = none := by rwa [State.issue_opcode]
  simp only [step, hp, evaluate_reserved rfl hop]

/-- A transaction with a defined code completes, and is then no longer pending (60_exceptions.md R97). -/
theorem exists_step_of_decode_ne_none {s : State} {t : Txn} {rest : List Txn} (hp : s.program = t :: rest)
    (hi : decode t.op ≠ none) : ∃ u, step s = .next u ∧ u.program = rest := by
  obtain ⟨i, hi⟩ := Option.ne_none_iff_exists'.mp hi
  obtain ⟨u, -, hstep⟩ := exists_exec_step hp hi
  obtain ⟨_, _, _, hrest, _⟩ := step_next hp hstep
  exact ⟨_, hstep, hrest⟩

theorem step_ne_fault (s : State) (f : Fault) : step s ≠ .fault f := by
  rcases step_cases s with ⟨-, h⟩ | ⟨_, _, -, -, h⟩ | ⟨_, _, _, -, -, h⟩ <;> simp [h]

/-- The one refusal of a step: the next transaction presents a reserved code (60_exceptions.md R100). -/
theorem step_eq_refused_iff (s : State) (r : Refusal) :
    step s = .refused r ↔ r = .reservedOp ∧ ∃ t rest, s.program = t :: rest ∧ decode t.op = none := by
  constructor
  · intro hstep
    rcases step_cases s with ⟨-, h⟩ | ⟨t, rest, hp, hi, h⟩ | ⟨_, _, _, -, -, h⟩
    · simp [h] at hstep
    · exact ⟨Host.Outcome.refused.inj (hstep.symm.trans h), t, rest, hp, hi⟩
    · simp [h] at hstep
  · rintro ⟨rfl, t, rest, hp, hi⟩
    exact step_of_decode_none hp hi

/-- A safe program runs to its end: each step completes the next transaction and leaves the rest, which is safe. -/
theorem State.Safe.exists_run {ts : List Txn} {s : State} (hs : s.Safe) (hp : s.program = ts) :
    ∃ t, core.run ts.length s = .next t ∧ t.program = [] := by
  induction ts generalizing s with
  | nil => exact ⟨s, rfl, hp⟩
  | cons x rest ih =>
    rw [State.Safe, hp, List.forall_mem_cons] at hs
    obtain ⟨hx, hrest⟩ := hs
    obtain ⟨u, hstep, hu⟩ := exists_step_of_decode_ne_none hp hx
    have husafe : u.Safe := by rwa [State.Safe, hu]
    rw [List.length_cons, run_succ hstep]
    exact ih husafe hu

end Sys2Proof.Machine

/-! The obligations of the exceptions. -/

namespace Sys2Proof.Exceptions

open Sys2Proof Sys2Proof.Machine

/-- Settles O10: of the three things a step can do none is a fault, and the one refusal is of a code that does not decode,
which is 6 or 7. -/
theorem onlyReservedCodesStopTheMachine : Obligations.OnlyReservedCodesStopTheMachine := by
  intro s
  refine ⟨step_ne_fault s, fun r => ?_⟩
  simp only [step_eq_refused_iff, decode_eq_none_iff]

/-- Settles O13: by induction on the pending transactions, each of which completes and leaves a safe rest. -/
theorem definedProgramsRunToTheirEnd : Obligations.DefinedProgramsRunToTheirEnd := fun _ hs => hs.exists_run rfl

end Sys2Proof.Exceptions

/-! ## 70_reset_and_hazards.md: nothing left to issue -/

namespace Sys2Proof.ResetAndHazards

open Sys2Proof Sys2Proof.Machine

/-- Settles O11: the step answers the state itself when no transaction is pending. -/
theorem noTransactionNoChange : Obligations.NoTransactionNoChange := fun _ hp => step_of_program_nil hp

end Sys2Proof.ResetAndHazards
